-- ==== Sys2Proof/Word.lean ====
section
/-! DEFINITION. The bit vectors of the block: an expander or packet byte, a bus address, SHOWNUM's value. -/

namespace Sys2Proof

/-- A byte: the unit of a bus write, of a packet and of a character code (rule R8, 00_scope.md). -/
abbrev Byte := BitVec 8

/-- A 7-bit I2C device address, 0..127 (rules R21 and R41). -/
abbrev BusAddress := BitVec 7

/-- The 32-bit two's complement value operand of SHOWNUM (rules R56 and R124; NUM_WIDTH = 32, decision D11). -/
abbrev Word32 := BitVec 32

end Sys2Proof
end

