-- ==== Sys2Proof/Config.lean ====
section
/-! DEFINITION. The named parameters of the block that rule R7 (00_scope.md) lets a model carry as configuration
fields. The values the spec takes for them are `Config.spec` in Machine/Params.lean. -/

namespace Sys2Proof

/-- UNSET_GUARD_SCOPE (rule R7, decision D5, conflict C2): which operations the unset-address guard covers. -/
inductive GuardScope where
  /-- The guard stands in WRNIB alone (rule R91): the spec's choice. -/
  | transportOnly
  /-- Every operation but CONNECT is a no-op on state as well while the address is unset: the reading not taken. -/
  | allOperations
  deriving DecidableEq, Repr

/-- The parameters decided with a name in 92_eei_decisions.md. A statement over all `Config` holds whichever way
those decisions had gone. -/
structure Config where
  /-- CMD_FUNCTION_SET (decision D2). -/
  cmdFunctionSet : Byte
  /-- CMD_DISPLAY_CTRL (decision D2). -/
  cmdDisplayCtrl : Byte
  /-- CMD_ENTRY_MODE (decision D2). -/
  cmdEntryMode : Byte
  /-- CHAR_SPACE, the character CLEAR writes (decision D3). -/
  charSpace : Byte
  /-- INIT_NIBBLE_OR_BACKLIGHT: the init nibbles of CONNECT carry the backlight bit (rule R113, decision D4). -/
  initNibbleOrBacklight : Bool
  /-- STOP_BEFORE_WRAP: the order of SHOWSTR's two per-character tests (rule R123, decision D7). -/
  stopBeforeWrap : Bool
  /-- UNSET_GUARD_SCOPE (decision D5). -/
  guardScope : GuardScope
  deriving DecidableEq, Repr

end Sys2Proof
end

