-- ==== Sys2Proof/Machine/Params.lean ====
section
/-! DEFINITION. The constants D0 fixes (rule R6, 00_scope.md) and the values the spec takes for the named
parameters (rule R7). -/

namespace Sys2Proof.Machine.Params

/-- COLS, columns per line; LINES is 2. -/
def cols : Nat := 16

/-- CELLS, the addressable character cells, linear positions 0..31. -/
def cells : Nat := 32

/-- LINE_BASE[0], the DDRAM-address-set base of line 0. -/
def lineBase0 : Nat := 0x80

/-- LINE_BASE[1], the base of every other line. -/
def lineBase1 : Nat := 0xC0

/-- EN_MASK, the enable line, bit 2 (rules R61 and R62). -/
def enMask : Byte := 0x04

/-- The complement of EN_MASK, which rule R90 clears the enable bit with. -/
def enClearMask : Byte := 0xFB

/-- NIB_MASK, the payload bits 7:4 (rule R62). -/
def nibMask : Nat := 0xF0

/-- BL_ON_BITS (rule R22, decision D1). -/
def blOnBits : Byte := 0x08

/-- BL_OFF_BITS (rule R22). -/
def blOffBits : Byte := 0x00

/-- NIB_FORCE8, the "force 8-bit" nibble in bus position. -/
def nibForce8 : Byte := 0x30

/-- NIB_SEL4, the nibble that selects 4-bit mode. -/
def nibSel4 : Byte := 0x20

/-- T_EN in µs, the enable pulse. -/
def tEn : Nat := 1

/-- T_NIB in µs, the processing of a nibble. -/
def tNib : Nat := 50

/-- T_PWR in ms, the power-on settle. -/
def tPwr : Nat := 50

/-- T_FORCE in µs: 4.1 ms after each NIB_FORCE8. -/
def tForce : Nat := 4100

/-- T_CFG in µs: 1 ms after NIB_SEL4 and after each configuration command. -/
def tCfg : Nat := 1000

/-- How many times CONNECT sends NIB_FORCE8 (rule R110). -/
def forceRepeats : Nat := 3

/-- The values the spec takes for its named parameters (rules R7, R67, R68, R113 and R123). -/
def spec : Config where
  cmdFunctionSet := 0x28
  cmdDisplayCtrl := 0x0C
  cmdEntryMode := 0x06
  charSpace := 0x20
  initNibbleOrBacklight := true
  stopBeforeWrap := true
  guardScope := .transportOnly

end Sys2Proof.Machine.Params
end

