-- ==== Sys2Proof/Syntax.lean ====
section
/-! DEFINITION. The ten operations of the block with their operands (rule R72, 30_encoding.md), one constructor
per row of spec/opcode_table.json. -/

namespace Sys2Proof

/-- The two values of the Backlight State (rule R22): the operand of SETBL and the content of register BL. -/
inductive Backlight where
  | off
  | on
  deriving DecidableEq, Repr

/-- The register-select of a framing (rule R100): bit value 0 for a command, 1 for data. "No other register-select
value exists" (rule R102). -/
inductive RegSel where
  | command
  | data
  deriving DecidableEq, Repr

/-- The operations, in the order of the opcode map of rule R72. Operand widths are those of the latches of rule
R25 (10_state.md): `addr` and `value` are two's complement, every other bit vector is unsigned. -/
inductive Instr where
  /-- connect(address): bind the session to an I2C address and replay the cold-start handshake (R110). -/
  | connect (addr : Byte)
  /-- showString(text, position): write characters from a linear position (R123). -/
  | showstr (pos : Byte) (text : List Byte)
  /-- showNumber(value, position): write an integer in decimal (R124). -/
  | shownum (pos : Byte) (value : Word32)
  /-- clear(): blank all 32 cells (R127). -/
  | clear
  /-- setBacklight(state) (R128). -/
  | setbl (state : Backlight)
  /-- writeNibble(value): strobe one expander byte (R90). -/
  | wrnib (value : Byte)
  /-- send(registerSelect, payload): frame one byte (R100). -/
  | send (rs : RegSel) (payload : Byte)
  /-- sendCommand(byte) (R101). -/
  | sendcmd (payload : Byte)
  /-- sendData(byte) (R102). -/
  | senddat (payload : Byte)
  /-- setCursor(line, column) (R121). -/
  | setcur (line column : Byte)
  deriving DecidableEq, Repr

end Sys2Proof
end

