-- ==== Sys2Proof/Machine/State.lean ====
section
/-! DEFINITION. All the state of the block (10_state.md), the event trace it is observed by (rule R9), the pending
inputs of its host interface, its state at reset, and the reasons a step could stop. -/

namespace Sys2Proof.Machine

/-- The named states of the connect state machine (rule R23). -/
inductive Phase where
  | unconnected
  | powerSettle
  | forceReset
  | fourBitSelect
  | functionSet
  | displayControl
  | entryModeSet
  | cleared
  | ready
  deriving DecidableEq, Repr

/-- One externally visible action of the block (rule R9). -/
inductive Event where
  /-- `W(a, v)`: one raw bus write of byte `v` to address `a` (rule R41). -/
  | w (a : BusAddress) (v : Byte)
  /-- `Dus(n)`: one microsecond delay, at least `n` µs (rule R44). -/
  | dus (n : Nat)
  /-- `Dms(n)`: one millisecond pause, at least `n` ms (rule R44). -/
  | dms (n : Nat)
  deriving DecidableEq, Repr

/-- What the transport answers to one bus write (rule R41); no rule reads it (rule R43). -/
inductive BusAnswer where
  | success
  | failure
  deriving DecidableEq, Repr

/-- Where WRNIB stands in the pseudocode of rule R90. -/
inductive WrnibPos where
  | guard | low | high | hold | lowAgain | settle | leave
  deriving DecidableEq, Repr

/-- Where a rule of at most two actions stands: before its first, before its second, at its end. -/
inductive BodyPos where
  | first | second | leave
  deriving DecidableEq, Repr

/-- Where SHOWSTR stands in the pseudocode of rule R123, with the loop latches I and IDX where they exist. -/
inductive ShowstrPos where
  /-- Before test (1), `pos > 31`. -/
  | enter
  /-- At the head of the character loop, with the latch I. -/
  | loop (i : Nat)
  /-- Before the first of the two per-character tests, with the latches I and IDX. -/
  | firstTest (i idx : Nat)
  /-- Before the second of the two per-character tests. -/
  | secondTest (i idx : Nat)
  /-- Before the character is sent, (5). -/
  | char (i idx : Nat)
  deriving DecidableEq, Repr

/-- Where CONNECT stands in the pseudocode of rule R110, with the repeat counter REP where it exists. -/
inductive ConnectPos where
  /-- Before the address test. -/
  | validate
  /-- Before `A <- addr`. -/
  | bind
  /-- Before `PHASE <- ph`. -/
  | enter (ph : Phase)
  /-- The three events of PowerSettle. -/
  | firstWait | rawByte | secondWait
  /-- ForceReset: the nibble, and the wait after it, of repetition REP. -/
  | force (rep : Nat) | forceWait (rep : Nat)
  /-- FourBitSelect: the nibble and its wait. -/
  | select | selectWait
  /-- FunctionSet, DisplayControl or EntryModeSet: the configuration command and its wait. -/
  | config (ph : Phase) | configWait (ph : Phase)
  /-- Cleared: the invoked CLEAR. -/
  | clearCall
  | leave
  deriving DecidableEq, Repr

/-- One active rule of the operation in progress: its operand latches and loop variables (rule R25) and its
position (rule R26). -/
inductive Frame where
  /-- Latch NIB. -/
  | wrnib (nib : Byte) (pos : WrnibPos)
  /-- Latches RS_IN and PAYLOAD, 8 bits wide (log entry 13). -/
  | send (rs : RegSel) (payload : Byte) (pos : BodyPos)
  /-- Latch PAYLOAD. -/
  | sendcmd (payload : Byte) (pos : BodyPos)
  /-- Latch PAYLOAD. -/
  | senddat (payload : Byte) (pos : BodyPos)
  /-- Latches LINE_IN and COL_IN, 8 bits each. -/
  | setcur (line column : Byte) (pos : BodyPos)
  /-- Latches POS and TEXT. -/
  | showstr (at_ : Byte) (text : List Byte) (pos : ShowstrPos)
  /-- Latches POS and VALUE. -/
  | shownum (at_ : Byte) (value : Word32) (pos : BodyPos)
  | clear (pos : BodyPos)
  /-- Latch STATE_IN. -/
  | setbl (state : Backlight) (pos : BodyPos)
  /-- Latch ADDR_IN. -/
  | connect (addr : Byte) (pos : ConnectPos)
  deriving DecidableEq, Repr

/-- The transient state of an operation in progress (rules R25 and R26). -/
structure Operation where
  /-- Latch OPC: the opcode of the packet in progress. -/
  opc : Byte
  /-- How many events of the operation have been emitted. -/
  emitted : Nat
  /-- The active rules, the innermost first. -/
  frames : List Frame
  deriving DecidableEq, Repr

/-- What the host side does to the block, oldest first in `State.inputs`. -/
inductive HostInput where
  /-- A command packet held at the host command port until the block takes it (rule R70). -/
  | packet (bytes : List Byte)
  /-- The reset input, asserted once `after` more events have completed, or as soon as no operation is in progress
  (rules R170 and R171). -/
  | reset (after : Nat)
  deriving DecidableEq, Repr

/-- Which of the two normative views of rule R10 the step takes: one operation a step, or one event a step. -/
inductive View where
  | operation
  | event
  deriving DecidableEq, Repr

/-- The state of the block and of its interface. -/
@[ext]
structure State where
  /-- BUSADDR, written `A`: unset, or the 7-bit address of the expander (rule R21). -/
  busAddr : Option BusAddress
  /-- BL, the Backlight State (rule R22). -/
  bl : Backlight
  /-- PHASE, the connect state machine (rule R23). -/
  phase : Phase
  /-- The operation in progress, none between operations: operand latches, loop variables and sequencer position
  (rules R25 and R26). The flag BUSY (rule R27) is `State.busy` in Machine/Flags.lean, its presence. -/
  running : Option Operation
  /-- The event trace `T` (rule R9), held newest event first; `State.trace` in Machine/Ops.lean is `T` in order. -/
  log : List Event
  /-- The model's own: what the host side does next, oldest first (log entry 2). -/
  inputs : List HostInput
  /-- The model's own: the answers the transport will give, one a bus write, which no rule reads (log entry 5). -/
  answers : List BusAnswer
  /-- The model's own: the view of rule R10 in which the step runs (log entry 3). -/
  view : View
  deriving DecidableEq, Repr

/-- The block right after reset (rules R29 and R170): address unset, backlight ON, Unconnected, no operation in
progress, an empty trace. The model's own fields start with no input, no answer foretold, and the
operation-atomic view (log entries 2, 3 and 5). -/
def State.reset : State where
  busAddr := none
  bl := .on
  phase := .unconnected
  running := none
  log := []
  inputs := []
  answers := []
  view := .operation

/-- The faults of the block: there are none. "Nothing is ever raised or reported" (rule R150), and "there is no
fault outcome of any step" (60_exceptions.md), so no constructor exists and nothing raises one. -/
inductive Fault where
  deriving DecidableEq, Repr

/-- The refusals of the model. -/
inductive Refusal where
  /-- Raised by an arm of `exec` whose instruction has no meaning yet; safe, since nothing is claimed of it. No arm
  of this model raises it. -/
  | notModelled (mnemonic : String)
  deriving DecidableEq, Repr

end Sys2Proof.Machine
end

