-- ==== Sys2Proof/Machine/Operands.lean ====
section
/-! DEFINITION. The operand assembly of the block: the expander byte (rules R61 and R62), the nibble split (rule
R63), the cursor command (rules R49 and R66), the operand tests, and `decimalString` (rule R125). -/

namespace Sys2Proof.Machine

open Params

/-- `v & 0xFB`: a byte with the enable bit clear (rule R62). -/
def enClear (v : Byte) : Byte := v &&& enClearMask

/-- `v | 0x04`: a byte with the enable bit set (rule R62). -/
def enSet (v : Byte) : Byte := v ||| enMask

/-- `blbits()`: the expander-byte image of BL (rule R22). -/
def blBits : Backlight → Byte
  | .off => blOffBits
  | .on => blOnBits

/-- The register-select bit of the expander byte, bit 0 (rules R61 and R100). -/
def rsBits : RegSel → Byte
  | .command => 0x00
  | .data => 0x01

/-- `hi(p) = p & 0xF0`, the high nibble of a payload in bus position (rule R63). -/
def hiNibble (p : Nat) : Byte := BitVec.ofNat 8 (p &&& nibMask)

/-- `lo(p) = (p << 4) & 0xF0`, the low nibble of a payload in bus position (rule R63). -/
def loNibble (p : Nat) : Byte := BitVec.ofNat 8 ((p <<< 4) &&& nibMask)

/-- A framed nibble, `n | blbits() | rs` (rule R62). -/
def framedNibble (n : Byte) (bl : Backlight) (rs : RegSel) : Byte := n ||| blBits bl ||| rsBits rs

/-- The value `b` that CONNECT ORs into its init nibbles (rule R113). -/
def initBits (c : Config) (bl : Backlight) : Byte := if c.initNibbleOrBacklight then blBits bl else 0x00

/-- The line of a linear position or index, `p ÷ 16` (rule R49). -/
def lineOf (p : Nat) : Nat := p / cols

/-- The column of a linear position or index, `p mod 16` (rule R49). -/
def columnOf (p : Nat) : Nat := p % cols

/-- The DDRAM-address-set command of SETCUR, an integer sum (rules R66 and R121). -/
def cursorCommand (line column : Nat) : Nat := (if line = 0 then lineBase0 else lineBase1) + column

/-- A value called with, as an 8-bit latch takes it (rule R25): its bits 7:0. Of SETCUR's sum, which can be wider, the
bits above take part in nothing (rule R63; log entry 13). -/
def latchByte (n : Nat) : Byte := BitVec.ofNat 8 n

/-- `p > 31`: a position or index beyond the display (rules R79 (b), (c) and R123). -/
def beyondDisplay (p : Nat) : Bool := decide (cells ≤ p)

/-- Test (4) of rule R123: a line boundary is crossed, and not by the first character. -/
def crossesLine (i idx : Nat) : Bool := decide (columnOf idx = 0) && decide (i ≠ 0)

/-- `addr < 0` on the two's complement operand of CONNECT (rules R79 (d) and R112). -/
def addressNegative (addr : Byte) : Bool := decide (addr.toInt < 0)

/-- The ADDR field a non-negative operand gives (rule R110). -/
def addressField (addr : Byte) : BusAddress := addr.truncate 7

/-- The code of a decimal digit (rules R68 and R125). -/
def digitCode (d : Nat) : Byte := BitVec.ofNat 8 (0x30 + d)

/-- The base-ten numeral of `n`, most significant digit first, by at most `fuel` divisions. -/
def digitsUpTo : (fuel : Nat) → (n : Nat) → List Byte
  | 0, _ => []
  | fuel + 1, n => if n < 10 then [digitCode n] else digitsUpTo fuel (n / 10) ++ [digitCode (n % 10)]

/-- `digits(n)` of rule R125: without leading zeros, `digits(0)` the single code 0x30. -/
def digits (n : Nat) : List Byte := digitsUpTo (n + 1) n

/-- `decimalString(v)` of rule R125, for every integer. -/
def decimalString (v : Int) : List Byte :=
  if v < 0 then 0x2D :: digits v.natAbs else digits v.natAbs

/-- The text CLEAR writes: 32 codes CHAR_SPACE (rule R127). -/
def blankText (c : Config) : List Byte := List.replicate cells c.charSpace

/-- The pseudo-instruction `position(n)`: the identity on 0..31, rejected elsewhere (rules R77 and R129). -/
def positionHelper (n : Nat) : Option Nat := if n < cells then some n else none

end Sys2Proof.Machine
end

