-- ==== Sys2Proof/Machine/Ops.lean ====
section
/-! DEFINITION. The operations over the block's state that the meanings are made of: the primitives of rule R9, the
pseudocode of the rules that call each other (R90, R100, R101, R102, R110, R121, R123, R124, R127, R128), and the
reset input (R170, R171). The block has no trap mechanism (rule R157), so no operation here takes an exception or
returns from one. -/

namespace Sys2Proof.Machine

open Params

/-- The event trace `T`, oldest event first (rule R9). -/
def State.trace (s : State) : List Event := s.log.reverse

/-- Append one event to the trace (rule R9). -/
def State.emit (s : State) (e : Event) : State := { s with log := e :: s.log }

/-- Take the transport's next answer and discard it (rule R43). -/
def State.discardAnswer (s : State) : State := { s with answers := s.answers.tail }

/-- `BusWrite(a, v)`: one raw bus write, its result discarded (rules R41 and R43). -/
def State.busWrite (s : State) (a : BusAddress) (v : Byte) : State := (s.emit (.w a v)).discardAnswer

/-- `WaitUs(n)` (rule R44). -/
def State.waitUs (s : State) (n : Nat) : State := s.emit (.dus n)

/-- `WaitMs(n)` (rule R44). -/
def State.waitMs (s : State) (n : Nat) : State := s.emit (.dms n)

/-- `A <- a` (rule R21). -/
def State.setBusAddr (s : State) (a : BusAddress) : State := { s with busAddr := some a }

/-- `BL <- b` (rule R22). -/
def State.setBl (s : State) (b : Backlight) : State := { s with bl := b }

/-- `PHASE <- ph` (rule R23). -/
def State.setPhase (s : State) (ph : Phase) : State := { s with phase := ph }

/-- Replace the transient state: start, advance or end an operation in progress (rules R25 and R26). -/
def State.setRunning (s : State) (o : Option Operation) : State := { s with running := o }

/-- Replace the pending inputs. -/
def State.setInputs (s : State) (ins : List HostInput) : State := { s with inputs := ins }

/-- WRNIB (rules R90 and R91). -/
def wrnib (v : Byte) (s : State) : State :=
  match s.busAddr with
  | none => s
  | some a =>
    let s := s.busWrite a (enClear v)
    let s := s.busWrite a (enSet v)
    let s := s.waitUs tEn
    let s := s.busWrite a (enClear v)
    s.waitUs tNib

/-- SEND: the high nibble first, then the low nibble (rules R45 and R100). -/
def send (rs : RegSel) (p : Nat) (s : State) : State :=
  let s := wrnib (framedNibble (hiNibble p) s.bl rs) s
  wrnib (framedNibble (loNibble p) s.bl rs) s

/-- SENDCMD (rule R101). -/
def sendCmd (p : Nat) (s : State) : State := send .command p s

/-- SENDDAT (rule R102). -/
def sendDat (p : Nat) (s : State) : State := send .data p s

/-- SETCUR (rule R121). -/
def setCur (line column : Nat) (s : State) : State := sendCmd (cursorCommand line column) s

/-- Test (4) of SHOWSTR and the cursor re-set it makes (rule R123). -/
def lineReset (i idx : Nat) (s : State) : State :=
  if crossesLine i idx then setCur (lineOf idx) 0 s else s

/-- The character loop of SHOWSTR from character `i` on, where the text still to send is given (rule R123). The
parameter STOP_BEFORE_WRAP orders the two tests. -/
def showLoop (c : Config) (pos : Nat) : (i : Nat) → (text : List Byte) → State → State
  | _, [], s => s
  | i, ch :: rest, s =>
    let idx := pos + i
    if c.stopBeforeWrap then
      if beyondDisplay idx then s
      else showLoop c pos (i + 1) rest (sendDat ch.toNat (lineReset i idx s))
    else
      if beyondDisplay idx then lineReset i idx s
      else showLoop c pos (i + 1) rest (sendDat ch.toNat (lineReset i idx s))

/-- SHOWSTR (rule R123). -/
def showStr (c : Config) (text : List Byte) (pos : Nat) (s : State) : State :=
  if beyondDisplay pos then s
  else showLoop c pos 0 text (setCur (lineOf pos) (columnOf pos) s)

/-- SHOWNUM (rule R124). -/
def showNum (c : Config) (v : Int) (pos : Nat) (s : State) : State := showStr c (decimalString v) pos s

/-- CLEAR (rule R127). -/
def clearAll (c : Config) (s : State) : State := showStr c (blankText c) 0 s

/-- SETBL (rule R128): BL is written before the frame is sent, whether or not an address is set, unless the
parameter UNSET_GUARD_SCOPE is the reading decision D5 did not take. -/
def setBacklight (c : Config) (b : Backlight) (s : State) : State :=
  if c.guardScope = .allOperations ∧ s.busAddr = none then s
  else sendCmd 0 (s.setBl b)

/-- One repetition of ForceReset: NIB_FORCE8 and its wait (rule R110). -/
def forceOnce (c : Config) (s : State) : State := (wrnib (nibForce8 ||| initBits c s.bl) s).waitUs tForce

/-- A configuration command of CONNECT and its settle (rule R110). -/
def configure (p : Byte) (s : State) : State := (sendCmd p.toNat s).waitUs tCfg

/-- The sequence of CONNECT once the address test has passed (rules R110, R111, R113 and R114). -/
def handshake (c : Config) (a : BusAddress) (s : State) : State :=
  let s := (s.setBusAddr a).setPhase .powerSettle
  let s := s.waitMs tPwr
  let s := s.busWrite a (blBits s.bl)
  let s := s.waitMs tPwr
  let s := s.setPhase .forceReset
  let s := Nat.repeat (forceOnce c) forceRepeats s
  let s := s.setPhase .fourBitSelect
  let s := (wrnib (nibSel4 ||| initBits c s.bl) s).waitUs tCfg
  let s := configure c.cmdFunctionSet (s.setPhase .functionSet)
  let s := configure c.cmdDisplayCtrl (s.setPhase .displayControl)
  let s := configure c.cmdEntryMode (s.setPhase .entryModeSet)
  let s := clearAll c (s.setPhase .cleared)
  s.setPhase .ready

/-- CONNECT (rules R110 and R112). -/
def connect (c : Config) (addr : Byte) (s : State) : State :=
  if addressNegative addr then s else handshake c (addressField addr) s

/-- The reset input (rules R170 and R171): the registers and the transient state take their reset values, no event
is emitted, and the events already completed stay in the trace. The model's own fields stay. -/
def State.resetBlock (s : State) : State :=
  { s with
    busAddr := State.reset.busAddr
    bl := State.reset.bl
    phase := State.reset.phase
    running := State.reset.running }

end Sys2Proof.Machine
end

