-- ==== Sys2Proof/Machine/Display.lean ====
section
/-! DEFINITION. The meanings of the display operations (43_display_ops.md). -/

namespace Sys2Proof.Machine

/-- SETCUR (rule R121). -/
def execSetcur (line column : Byte) (s : State) : Host.Outcome State Fault Refusal :=
  .next (setCur line.toNat column.toNat s)

/-- SHOWSTR (rule R123). -/
def execShowstr (pos : Byte) (text : List Byte) (s : State) : Host.Outcome State Fault Refusal :=
  .next (showStr Params.spec text pos.toNat s)

/-- SHOWNUM (rule R124). -/
def execShownum (pos : Byte) (value : Word32) (s : State) : Host.Outcome State Fault Refusal :=
  .next (showNum Params.spec value.toInt pos.toNat s)

/-- CLEAR (rule R127). -/
def execClear (s : State) : Host.Outcome State Fault Refusal := .next (clearAll Params.spec s)

/-- SETBL (rule R128). -/
def execSetbl (state : Backlight) (s : State) : Host.Outcome State Fault Refusal :=
  .next (setBacklight Params.spec state s)

end Sys2Proof.Machine
end

