-- ==== Sys2Proof/Machine/Framer.lean ====
section
/-! DEFINITION. The meanings of the Command/Data Framer's operations (41_framer.md). -/

namespace Sys2Proof.Machine

/-- SEND (rule R100). -/
def execSend (rs : RegSel) (payload : Byte) (s : State) : Host.Outcome State Fault Refusal :=
  .next (send rs payload.toNat s)

/-- SENDCMD (rule R101). -/
def execSendcmd (payload : Byte) (s : State) : Host.Outcome State Fault Refusal :=
  .next (sendCmd payload.toNat s)

/-- SENDDAT (rule R102). -/
def execSenddat (payload : Byte) (s : State) : Host.Outcome State Fault Refusal :=
  .next (sendDat payload.toNat s)

end Sys2Proof.Machine
end

