-- ==== Sys2Proof/Machine/Init.lean ====
section
/-! DEFINITION. The meaning of CONNECT (42_connect_init.md). -/

namespace Sys2Proof.Machine

/-- CONNECT (rule R110). -/
def execConnect (addr : Byte) (s : State) : Host.Outcome State Fault Refusal :=
  .next (connect Params.spec addr s)

end Sys2Proof.Machine
end

