-- ==== Sys2Proof/Machine/Transport.lean ====
section
/-! DEFINITION. The meaning of the Nibble Transport's operation (40_nibble_transport.md). -/

namespace Sys2Proof.Machine

/-- WRNIB (rule R90). -/
def execWrnib (value : Byte) (s : State) : Host.Outcome State Fault Refusal := .next (wrnib value s)

end Sys2Proof.Machine
end

