-- ==== Sys2Proof/Machine/Dispatch.lean ====
section
/-! DEFINITION. One arm per instruction: the operation-atomic view of rule R10, `exec(OP, args)`. -/

namespace Sys2Proof.Machine

def exec (i : Instr) (s : State) : Host.Outcome State Fault Refusal :=
  match i with
  | .connect addr => Sys2Proof.Machine.execConnect addr s
  | .showstr pos text => Sys2Proof.Machine.execShowstr pos text s
  | .shownum pos value => Sys2Proof.Machine.execShownum pos value s
  | .clear => Sys2Proof.Machine.execClear s
  | .setbl state => Sys2Proof.Machine.execSetbl state s
  | .wrnib value => Sys2Proof.Machine.execWrnib value s
  | .send rs payload => Sys2Proof.Machine.execSend rs payload s
  | .sendcmd payload => Sys2Proof.Machine.execSendcmd payload s
  | .senddat payload => Sys2Proof.Machine.execSenddat payload s
  | .setcur line column => Sys2Proof.Machine.execSetcur line column s

end Sys2Proof.Machine
end

