-- ==== Sys2Proof/WellFormed.lean ====
section
/-! DEFINITION. Which terms of `Instr` a packet can carry. The operand types already hold every width but one: the
length of SHOWSTR's text. -/

namespace Sys2Proof

/-- The text operand of SHOWSTR has 0..255 characters, since its length travels in one byte (rules R71 and R73). -/
def Instr.textFits : Instr → Bool
  | .showstr _ text => decide (text.length ≤ 255)
  | .connect _ | .shownum _ _ | .clear | .setbl _ | .wrnib _ | .send _ _ | .sendcmd _ | .senddat _
  | .setcur _ _ => true

/-- A well-formed command: one that some packet encodes (rule R75). -/
def Instr.wf (i : Instr) : Bool := i.textFits

end Sys2Proof
end

