-- ==== Sys2Proof/Decode.lean ====
section
/-! DEFINITION. The host command packet (30_encoding.md, section 4): the opcode map, the decoder (total on byte
sequences, every rejection by name) and the encoder, both written from rules R71 to R75. -/

namespace Sys2Proof

/-- The ten opcodes of rule R72. -/
inductive Op where
  | connect | showstr | shownum | clear | setbl | wrnib | send | sendcmd | senddat | setcur
  deriving DecidableEq, Repr

/-- The opcode map (rule R72): byte 0 of the packet. -/
def Op.code : Op → Byte
  | .connect => 0x01
  | .showstr => 0x02
  | .shownum => 0x03
  | .clear => 0x04
  | .setbl => 0x05
  | .wrnib => 0x10
  | .send => 0x11
  | .sendcmd => 0x12
  | .senddat => 0x13
  | .setcur => 0x14

/-- All opcodes, in the order of the table of rule R72. -/
def Op.all : List Op :=
  [.connect, .showstr, .shownum, .clear, .setbl, .wrnib, .send, .sendcmd, .senddat, .setcur]

/-- The opcode a first byte names; every other value is reserved (rule R72). -/
def Op.ofByte (b : Byte) : Option Op := Op.all.find? (fun o => o.code == b)

/-- The opcode of a command. -/
def Instr.op : Instr → Op
  | .connect _ => .connect
  | .showstr _ _ => .showstr
  | .shownum _ _ => .shownum
  | .clear => .clear
  | .setbl _ => .setbl
  | .wrnib _ => .wrnib
  | .send _ _ => .send
  | .sendcmd _ => .sendcmd
  | .senddat _ => .senddat
  | .setcur _ _ => .setcur

/-- The predicate `public_surface` (rule R78): the operations of D0's public table that have packets. -/
def Instr.publicSurface : Instr → Bool
  | .connect _ | .showstr _ _ | .shownum _ _ | .clear | .setbl _ => true
  | .wrnib _ | .send _ _ | .sendcmd _ | .senddat _ | .setcur _ _ => false

/-- Why a packet is malformed, the cases (a) to (e) of rule R74. -/
inductive Malformed where
  /-- (a) the packet has no byte. -/
  | empty
  /-- (b) byte 0 is none of the ten opcodes. -/
  | reservedOpcode (opc : Byte)
  /-- (c) the length is not the one rule R73 gives for the opcode. -/
  | wrongLength (op : Op)
  /-- (d) SETBL with a state byte other than 0x00 and 0x01. -/
  | badBacklight (state : Byte)
  /-- (e) SEND with an rs byte other than 0x00 and 0x01. -/
  | badRegSel (rs : Byte)
  deriving DecidableEq, Repr

/-- The answer of the decoder (rule R75): a command, or a packet to be ignored, by name. -/
inductive Decoded where
  | cmd (i : Instr)
  | ignored (why : Malformed)
  deriving DecidableEq, Repr

/-- The packet image of OFF and ON (rule R72, decision D24). -/
def Backlight.byte : Backlight → Byte
  | .off => 0x00
  | .on => 0x01

/-- The packet image of command and data (decision D24). -/
def RegSel.byte : RegSel → Byte
  | .command => 0x00
  | .data => 0x01

/-- The state a SETBL operand byte names (rule R75). -/
def Backlight.ofByte (b : Byte) : Option Backlight :=
  if b = 0x00 then some .off else if b = 0x01 then some .on else none

/-- The register-select a SEND operand byte names (rule R75). -/
def RegSel.ofByte (b : Byte) : Option RegSel :=
  if b = 0x00 then some .command else if b = 0x01 then some .data else none

/-- The 32-bit value of SHOWNUM from its packet bytes, least significant byte first (rule R56, 20_memory.md). -/
def word32OfBytes (v0 v1 v2 v3 : Byte) : Word32 :=
  BitVec.ofNat 32 (v0.toNat + 256 * v1.toNat + 65536 * v2.toNat + 16777216 * v3.toNat)

/-- Byte `k` of a 32-bit value, byte 0 the least significant. -/
def byteOfWord32 (v : Word32) (k : Nat) : Byte := BitVec.ofNat 8 (v.toNat / 256 ^ k)

/-- The operand bytes of a packet, by the format of its opcode (rules R71 and R74). -/
def decodeOperands : Op → List Byte → Decoded
  | .connect, [addr] => .cmd (.connect addr)
  | .connect, _ => .ignored (.wrongLength .connect)
  | .showstr, pos :: len :: text =>
    if text.length = len.toNat then .cmd (.showstr pos text) else .ignored (.wrongLength .showstr)
  | .showstr, _ => .ignored (.wrongLength .showstr)
  | .shownum, [pos, v0, v1, v2, v3] => .cmd (.shownum pos (word32OfBytes v0 v1 v2 v3))
  | .shownum, _ => .ignored (.wrongLength .shownum)
  | .clear, [] => .cmd .clear
  | .clear, _ => .ignored (.wrongLength .clear)
  | .setbl, [state] =>
    match Backlight.ofByte state with
    | some b => .cmd (.setbl b)
    | none => .ignored (.badBacklight state)
  | .setbl, _ => .ignored (.wrongLength .setbl)
  | .wrnib, [value] => .cmd (.wrnib value)
  | .wrnib, _ => .ignored (.wrongLength .wrnib)
  | .send, [rs, payload] =>
    match RegSel.ofByte rs with
    | some r => .cmd (.send r payload)
    | none => .ignored (.badRegSel rs)
  | .send, _ => .ignored (.wrongLength .send)
  | .sendcmd, [payload] => .cmd (.sendcmd payload)
  | .sendcmd, _ => .ignored (.wrongLength .sendcmd)
  | .senddat, [payload] => .cmd (.senddat payload)
  | .senddat, _ => .ignored (.wrongLength .senddat)
  | .setcur, [line, column] => .cmd (.setcur line column)
  | .setcur, _ => .ignored (.wrongLength .setcur)

/-- The decoder: total on byte sequences (rule R75). -/
def decode : List Byte → Decoded
  | [] => .ignored .empty
  | opc :: operands =>
    match Op.ofByte opc with
    | some op => decodeOperands op operands
    | none => .ignored (.reservedOpcode opc)

/-- The operand bytes of a command, in packet order (rule R71). -/
def encodeOperands : Instr → List Byte
  | .connect addr => [addr]
  | .showstr pos text => pos :: BitVec.ofNat 8 text.length :: text
  | .shownum pos v => [pos, byteOfWord32 v 0, byteOfWord32 v 1, byteOfWord32 v 2, byteOfWord32 v 3]
  | .clear => []
  | .setbl state => [state.byte]
  | .wrnib value => [value]
  | .send rs payload => [rs.byte, payload]
  | .sendcmd payload => [payload]
  | .senddat payload => [payload]
  | .setcur line column => [line, column]

/-- The encoder, the right inverse of `decode` on well-formed commands (rule R75). -/
def encode (i : Instr) : List Byte := i.op.code :: encodeOperands i

/-- The length of a well-formed packet, a function of its opcode and, for SHOWSTR, of its third byte (rule R73). -/
def packetLength (op : Op) (third : Byte) : Nat :=
  match op with
  | .clear => 1
  | .connect | .setbl | .wrnib | .sendcmd | .senddat => 2
  | .send | .setcur => 3
  | .shownum => 6
  | .showstr => 3 + third.toNat

/-- Byte `k` of a packet whose bits are the number `w`, byte 0 in bits 7:0 (rule R71). -/
def tableByte (w k : Nat) : Byte := BitVec.ofNat 8 (w / 256 ^ k)

/-- The packet a table word stands for: the low `nbits` bits of `w`, then zero bytes up to the length rule R73
gives for its opcode. A word of more whole bytes than that keeps them, and the decoder refuses it. -/
def packetOfTableWord (nbits w : Nat) : List Byte :=
  let bits := w % 2 ^ nbits
  let given := (nbits + 7) / 8
  let need :=
    match Op.ofByte (tableByte bits 0) with
    | some op => packetLength op (tableByte bits 2)
    | none => 0
  (List.range (max given need)).map (tableByte bits)

/-- What the decoder reads from an instruction of the opcode table given as a number (host's name). -/
def decodeTableWord (nbits w : Nat) : Option Instr :=
  match decode (packetOfTableWord nbits w) with
  | .cmd i => some i
  | .ignored _ => none

end Sys2Proof
end

