-- ==== Sys2Proof/Machine/Flags.lean ====
section
/-! DEFINITION. BUSY, "the only flag" of the block (rule R27), and the register images of rules R21 to R23. No
operation writes a condition code or an error flag: there are none. -/

namespace Sys2Proof.Machine

/-- BUSY: 1 from the acceptance of a packet until the last event of its operation has completed (rule R27). -/
def State.busy (s : State) : Bool := s.running.isSome

/-- The ready side of the port's handshake: a packet is taken only when BUSY = 0 (rule R70). -/
def State.portReady (s : State) : Bool := !s.busy

/-- The 8-bit image of BUSADDR (rule R21): bit 7 the field UNSET, bits 6:0 the field ADDR, all ones while unset. -/
def busAddrImage : Option BusAddress → Byte
  | none => 0xFF
  | some a => a.zeroExtend 8

/-- The 1-bit image of BL (rule R22). -/
def blImage : Backlight → BitVec 1
  | .off => 0
  | .on => 1

/-- The 4-bit image of PHASE (rule R23). -/
def phaseImage : Phase → BitVec 4
  | .unconnected => 0
  | .powerSettle => 1
  | .forceReset => 2
  | .fourBitSelect => 3
  | .functionSet => 4
  | .displayControl => 5
  | .entryModeSet => 6
  | .cleared => 7
  | .ready => 8

end Sys2Proof.Machine
end

