-- ==== Sys2Proof/Machine/Sequencer.lean ====
section
/-! DEFINITION. The micro-step view of rule R10: the sequencer (rule R26), which takes the rule of the operation in
progress through its events one at a time. It is written from the same pseudocode as Machine/Ops.lean, action by
action, and does not call it. -/

namespace Sys2Proof.Machine

open Params

/-- What the innermost active rule does next. Only `emit` is an event; the others take no place in the trace. -/
inductive Move where
  | emit (e : Event) (f : Frame)
  | bindAddr (a : BusAddress) (f : Frame)
  | writeBl (b : Backlight) (f : Frame)
  | writePhase (ph : Phase) (f : Frame)
  | goto (f : Frame)
  | call (callee f : Frame)
  | ret
  deriving DecidableEq, Repr

/-- The position after `PHASE <- ph` in the pseudocode of rule R110. -/
def ConnectPos.afterEnter : Phase → ConnectPos
  | .unconnected => .leave
  | .powerSettle => .firstWait
  | .forceReset => .force 0
  | .fourBitSelect => .select
  | .functionSet => .config .functionSet
  | .displayControl => .config .displayControl
  | .entryModeSet => .config .entryModeSet
  | .cleared => .clearCall
  | .ready => .leave

/-- The state that follows in the state machine of rule R111. -/
def Phase.following : Phase → Phase
  | .unconnected => .powerSettle
  | .powerSettle => .forceReset
  | .forceReset => .fourBitSelect
  | .fourBitSelect => .functionSet
  | .functionSet => .displayControl
  | .displayControl => .entryModeSet
  | .entryModeSet => .cleared
  | .cleared => .ready
  | .ready => .ready

/-- The configuration command CONNECT sends in a state (rules R110 and R111). -/
def configCommand (c : Config) : Phase → Byte
  | .functionSet => c.cmdFunctionSet
  | .displayControl => c.cmdDisplayCtrl
  | .entryModeSet => c.cmdEntryMode
  | .unconnected | .powerSettle | .forceReset | .fourBitSelect | .cleared | .ready => 0x00

/-- A bus write to the current BUSADDR; with none set the rule returns (rule R91). -/
def moveWrite (a : Option BusAddress) (v : Byte) (f : Frame) : Move :=
  match a with
  | none => .ret
  | some a => .emit (.w a v) f

/-- WRNIB, line by line (rule R90). -/
def moveWrnib (a : Option BusAddress) (v : Byte) : WrnibPos → Move
  | .guard => if a = none then .ret else .goto (.wrnib v .low)
  | .low => moveWrite a (enClear v) (.wrnib v .high)
  | .high => moveWrite a (enSet v) (.wrnib v .hold)
  | .hold => .emit (.dus tEn) (.wrnib v .lowAgain)
  | .lowAgain => moveWrite a (enClear v) (.wrnib v .settle)
  | .settle => .emit (.dus tNib) (.wrnib v .leave)
  | .leave => .ret

/-- SEND (rule R100): BL is read once for each nibble. -/
def moveSend (bl : Backlight) (rs : RegSel) (p : Byte) : BodyPos → Move
  | .first => .call (.wrnib (framedNibble (hiNibble p.toNat) bl rs) .guard) (.send rs p .second)
  | .second => .call (.wrnib (framedNibble (loNibble p.toNat) bl rs) .guard) (.send rs p .leave)
  | .leave => .ret

/-- Test (3) of SHOWSTR: the stop (rule R123). -/
def moveStop (idx : Nat) (next : Frame) : Move := if beyondDisplay idx then .ret else .goto next

/-- Test (4) of SHOWSTR: the cursor re-set (rule R123). -/
def moveLineReset (i idx : Nat) (next : Frame) : Move :=
  if crossesLine i idx then .call (.setcur (latchByte (lineOf idx)) 0 .first) next else .goto next

/-- SHOWSTR, line by line (rule R123). -/
def moveShowstr (c : Config) (pos : Byte) (text : List Byte) : ShowstrPos → Move
  | .enter =>
    if beyondDisplay pos.toNat then .ret
    else
      .call (.setcur (latchByte (lineOf pos.toNat)) (latchByte (columnOf pos.toNat)) .first)
        (.showstr pos text (.loop 0))
  | .loop i =>
    if i < text.length then .goto (.showstr pos text (.firstTest i (pos.toNat + i))) else .ret
  | .firstTest i idx =>
    if c.stopBeforeWrap then moveStop idx (.showstr pos text (.secondTest i idx))
    else moveLineReset i idx (.showstr pos text (.secondTest i idx))
  | .secondTest i idx =>
    if c.stopBeforeWrap then moveLineReset i idx (.showstr pos text (.char i idx))
    else moveStop idx (.showstr pos text (.char i idx))
  | .char i _ => .call (.senddat (text.getD i 0) .first) (.showstr pos text (.loop (i + 1)))

/-- CONNECT, line by line (rule R110). -/
def moveConnect (c : Config) (a : Option BusAddress) (bl : Backlight) (addr : Byte) : ConnectPos → Move
  | .validate => if addressNegative addr then .ret else .goto (.connect addr .bind)
  | .bind => .bindAddr (addressField addr) (.connect addr (.enter .powerSettle))
  | .enter ph => .writePhase ph (.connect addr (ConnectPos.afterEnter ph))
  | .firstWait => .emit (.dms tPwr) (.connect addr .rawByte)
  | .rawByte => moveWrite a (blBits bl) (.connect addr .secondWait)
  | .secondWait => .emit (.dms tPwr) (.connect addr (.enter .forceReset))
  | .force rep => .call (.wrnib (nibForce8 ||| initBits c bl) .guard) (.connect addr (.forceWait rep))
  | .forceWait rep =>
    .emit (.dus tForce)
      (.connect addr (if rep + 1 < forceRepeats then .force (rep + 1) else .enter .fourBitSelect))
  | .select => .call (.wrnib (nibSel4 ||| initBits c bl) .guard) (.connect addr .selectWait)
  | .selectWait => .emit (.dus tCfg) (.connect addr (.enter .functionSet))
  | .config ph => .call (.sendcmd (configCommand c ph) .first) (.connect addr (.configWait ph))
  | .configWait ph => .emit (.dus tCfg) (.connect addr (.enter ph.following))
  | .clearCall => .call (.clear .first) (.connect addr (.enter .ready))
  | .leave => .ret

/-- SETBL (rule R128). -/
def moveSetbl (c : Config) (a : Option BusAddress) (b : Backlight) : BodyPos → Move
  | .first => if c.guardScope = .allOperations ∧ a = none then .ret else .writeBl b (.setbl b .second)
  | .second => .call (.sendcmd 0 .first) (.setbl b .leave)
  | .leave => .ret

/-- A rule whose body is one call. -/
def moveDelegate (callee after : Frame) : BodyPos → Move
  | .first => .call callee after
  | .second | .leave => .ret

/-- What an active rule does next, from its latches, its position and the registers the rules read. -/
def Frame.move (c : Config) (a : Option BusAddress) (bl : Backlight) : Frame → Move
  | .wrnib v pos => moveWrnib a v pos
  | .send rs p pos => moveSend bl rs p pos
  | .sendcmd p pos => moveDelegate (.send .command p .first) (.sendcmd p .leave) pos
  | .senddat p pos => moveDelegate (.send .data p .first) (.senddat p .leave) pos
  | .setcur line column pos =>
    moveDelegate (.sendcmd (latchByte (cursorCommand line.toNat column.toNat)) .first) (.setcur line column .leave) pos
  | .showstr p text pos => moveShowstr c p text pos
  | .shownum p v pos =>
    moveDelegate (.showstr p (decimalString v.toInt) .enter) (.shownum p v .leave) pos
  | .clear pos => moveDelegate (.showstr 0 (blankText c) .enter) (.clear .leave) pos
  | .setbl b pos => moveSetbl c a b pos
  | .connect addr pos => moveConnect c a bl addr pos

/-- An event's effect on trace and transport: a bus write also takes the transport's answer and discards it. -/
def State.perform (s : State) : Event → State
  | .w a v => s.busWrite a v
  | .dus n => s.waitUs n
  | .dms n => s.waitMs n

/-- The operation with other active rules; when none is left the operation has ended and its latches are gone
(rules R25 and R27). -/
def Operation.withFrames (o : Operation) : List Frame → Option Operation
  | [] => none
  | fs => some { o with frames := fs }

/-- One move of the sequencer on an operation whose innermost rule is `f` above `fs`. -/
def applyMove (s : State) (o : Operation) (fs : List Frame) : Move → State
  | .emit e f => (s.perform e).setRunning (some { o with emitted := o.emitted + 1, frames := f :: fs })
  | .bindAddr a f => (s.setBusAddr a).setRunning (o.withFrames (f :: fs))
  | .writeBl b f => (s.setBl b).setRunning (o.withFrames (f :: fs))
  | .writePhase ph f => (s.setPhase ph).setRunning (o.withFrames (f :: fs))
  | .goto f => s.setRunning (o.withFrames (f :: fs))
  | .call callee f => s.setRunning (o.withFrames (callee :: f :: fs))
  | .ret => s.setRunning (o.withFrames fs)

/-- The next move of the block, when an operation is in progress. -/
def State.nextMove (c : Config) (s : State) : Option Move :=
  match s.running with
  | none => none
  | some o =>
    match o.frames with
    | [] => none
    | f :: _ => some (f.move c s.busAddr s.bl)

/-- Take the next move. An operation with no active rule, which no run reaches, ends. -/
def State.advance (c : Config) (s : State) : State :=
  match s.running with
  | none => s
  | some o =>
    match o.frames with
    | [] => s.setRunning none
    | f :: fs => applyMove s o fs (f.move c s.busAddr s.bl)

/-- The block stands before an event, or no operation is in progress. -/
def State.settled (c : Config) (s : State) : Bool :=
  match s.running with
  | none => true
  | some _ =>
    match s.nextMove c with
    | some (.emit _ _) => true
    | _ => false

/-- More moves than any operation has (the longest has 400 events, rule R183), so a bound on the moves between two
events. -/
def moveBound : Nat := 8192

/-- Take the moves that are no events, up to the next event or the end of the operation. -/
def settleWithin (c : Config) : (fuel : Nat) → State → State
  | 0, s => s
  | fuel + 1, s => if s.settled c then s else settleWithin c fuel (s.advance c)

/-- The moves between two events take no time of their own: an operation that has emitted its last event has ended
(rule R27), and one with none ends when it is accepted. -/
def State.settle (c : Config) (s : State) : State := settleWithin c moveBound s

/-- One event of the operation in progress (rule R26: the position "advances by one at every event"). -/
def State.tick (c : Config) (s : State) : State := (s.advance c).settle c

/-- The rule of an operation before its first line, with the operand latches loaded (rule R25). -/
def Frame.start : Instr → Frame
  | .connect addr => .connect addr .validate
  | .showstr pos text => .showstr pos text .enter
  | .shownum pos v => .shownum pos v .first
  | .clear => .clear .first
  | .setbl b => .setbl b .first
  | .wrnib v => .wrnib v .guard
  | .send rs p => .send rs p .first
  | .sendcmd p => .sendcmd p .first
  | .senddat p => .senddat p .first
  | .setcur line column => .setcur line column .first

/-- The operation a packet starts: its opcode latched, no event emitted yet. -/
def Operation.start (i : Instr) : Operation where
  opc := i.op.code
  emitted := 0
  frames := [Frame.start i]

/-- Accept a command in the micro-step view: latch it and stand before its first event (rules R25 and R27). -/
def State.accept (c : Config) (i : Instr) (s : State) : State :=
  (s.setRunning (some (Operation.start i))).settle c

/-- `k` events of the operation in progress. -/
def State.ticks (c : Config) (k : Nat) (s : State) : State := Nat.repeat (State.tick c) k s

end Sys2Proof.Machine
end

