-- ==== Sys2Proof/Machine/Port.lean ====
section
/-! DEFINITION. The host interface: the command port with its handshake (rules R27 and R70), the reset input (rules
R170 and R171), and how the next step's work is chosen. -/

namespace Sys2Proof.Machine

/-- What a step is to do: move to a state in which no instruction starts, or run an instruction in a state whose
packet has been taken. -/
inductive Fetched where
  | moved (s : State)
  | run (i : Instr) (s : State)
  deriving DecidableEq, Repr

/-- A packet offered to the idle block is taken whole (rule R70). A malformed one is ignored: no state changes, no
event is appended, nothing is reported (rule R74). A command is latched and started in the event view, and handed
over to be run in the operation view (rule R10). -/
def takePacket (bytes : List Byte) (s : State) : Fetched :=
  match decode bytes with
  | .ignored _ => .moved s
  | .cmd i =>
    match s.view with
    | .operation => .run i s
    | .event => .moved (s.accept Params.spec i)

/-- The idle block, BUSY = 0: it waits for a packet (rule R29), takes the one offered, or is reset. -/
def fetchIdle (s : State) : Fetched :=
  match s.inputs with
  | [] => .moved s
  | .packet bytes :: rest => takePacket bytes (s.setInputs rest)
  | .reset _ :: rest => .moved (s.setInputs rest).resetBlock

/-- The block with an operation in progress, BUSY = 1: a packet offered is held off (rule R27), an asserted reset
abandons the operation (rule R171), and otherwise the next event happens. -/
def stepBusy (s : State) : State :=
  match s.inputs with
  | .reset 0 :: rest => (s.setInputs rest).resetBlock
  | .reset (after + 1) :: rest => (s.setInputs (.reset after :: rest)).tick Params.spec
  | .packet _ :: _ | [] => s.tick Params.spec

/-- What the next step does. -/
def State.fetch (s : State) : Fetched := if s.busy then .moved (stepBusy s) else fetchIdle s

/-- The state in which the packet `bytes` is the next the block takes, in the operation view and with no operation in
progress. -/
def State.offer (s : State) (bytes : List Byte) : State :=
  { s with running := none, inputs := .packet bytes :: s.inputs, view := .operation }

end Sys2Proof.Machine
end

