-- ==== Sys2Proof/Machine/Step.lean ====
section
/-! DEFINITION. One step of the block: what the port and the sequencer choose, and the meaning of an instruction
where one is to be run. -/

namespace Sys2Proof.Machine

/-- The step. In the operation view it runs one accepted command to its end; in the event view it accepts a command
or emits one event (rule R10). -/
def step (s : State) : Host.Outcome State Fault Refusal :=
  match s.fetch with
  | .moved s' => .next s'
  | .run i s' => exec i s'

/-- The state in which the instruction the table word stands for is the next the block runs (host's name): its packet
is offered first at the host command port (log entry 2). -/
def State.withFetchWord (s : State) (nbits w : Nat) : State := s.offer (packetOfTableWord nbits w)

end Sys2Proof.Machine
end

