-- ==== Sys2Proof/Machine/Assembler.lean ====
section
/-! DEFINITION. The assembler syntax of rule R76 with the pseudo-instruction `position` (rules R77 and R129): from a
line of text to a command line, and from a command line to its packet. Operands outside the ranges of rule R76 cannot
be assembled. -/

namespace Sys2Proof.Machine

/-- A position operand as written: an integer, or `position(n)` (rule R77). -/
inductive PosArg where
  | number (n : Int)
  | position (n : Int)
  deriving DecidableEq, Repr

/-- One line of rule R76, operands in D0's order and not yet checked. -/
inductive SourceLine where
  | connect (a : Int)
  | showString (text : List Char) (p : PosArg)
  | showNumber (v : Int) (p : PosArg)
  | clear
  | setBacklight (s : Backlight)
  | writeNibble (v : Int)
  | send (rs : RegSel) (b : Int)
  | sendCommand (b : Int)
  | sendData (b : Int)
  | setCursor (l c : Int)
  deriving DecidableEq, Repr

/-! ### From a command line to its packet -/

/-- An unsigned byte operand, 0..255, the range of its packet field: DESIGN CHOICE where the table of rule R76 shows no
range (log entry 18). -/
def byteOperand (n : Int) : Option Byte := if 0 ≤ n ∧ n ≤ 255 then some (BitVec.ofInt 8 n) else none

/-- A position operand: 0..255 as a number; `position(n)` is the identity on 0..31 and is rejected elsewhere. -/
def PosArg.byte : PosArg → Option Byte
  | .number n => byteOperand n
  | .position n => if 0 ≤ n then (positionHelper n.toNat).map (BitVec.ofNat 8) else none

/-- A character's 8-bit code, taken to be its Unicode scalar value: DESIGN CHOICE (log entry 25), since rule R68 gives
only ASCII codes and the spec has no code table (91_not_in_source.md, N17). Safe: no step reads text. A code above 255
cannot be assembled (93_implementation_defined.md, U8). -/
def charOperand (ch : Char) : Option Byte :=
  if ch.toNat ≤ 255 then some (BitVec.ofNat 8 ch.toNat) else none

/-- The character codes of a text of at most 255 characters. -/
def textOperand (text : List Char) : Option (List Byte) :=
  if text.length ≤ 255 then text.mapM charOperand else none

/-- The packet of a command line (the table of rule R76). -/
def assemble : SourceLine → Option (List Byte)
  | .connect a => if -128 ≤ a ∧ a ≤ 127 then some [0x01, BitVec.ofInt 8 a] else none
  | .showString text p =>
    match textOperand text, p.byte with
    | some cs, some pb => some (0x02 :: pb :: BitVec.ofNat 8 text.length :: cs)
    | _, _ => none
  | .showNumber v p =>
    match p.byte with
    | some pb =>
      if -2147483648 ≤ v ∧ v ≤ 2147483647 then
        let w : Word32 := BitVec.ofInt 32 v
        some [0x03, pb, byteOfWord32 w 0, byteOfWord32 w 1, byteOfWord32 w 2, byteOfWord32 w 3]
      else none
    | none => none
  | .clear => some [0x04]
  | .setBacklight s => some [0x05, s.byte]
  | .writeNibble v => (byteOperand v).map fun b => [0x10, b]
  | .send rs v => (byteOperand v).map fun b => [0x11, rs.byte, b]
  | .sendCommand v => (byteOperand v).map fun b => [0x12, b]
  | .sendData v => (byteOperand v).map fun b => [0x13, b]
  | .setCursor l c =>
    match byteOperand l, byteOperand c with
    | some lb, some cb => some [0x14, lb, cb]
    | _, _ => none

/-! ### From text to a command line -/

/-- The tokens of a line. -/
inductive Token where
  | name (cs : List Char)
  | num (n : Int)
  | str (cs : List Char)
  | lpar
  | rpar
  | comma
  deriving DecidableEq, Repr

/-- What the scanner is inside of; the characters read so far, the last first. -/
inductive ScanMode where
  | between
  | inName (acc : List Char)
  | inNum (acc : List Char)
  | inStr (acc : List Char)
  deriving DecidableEq, Repr

/-- A digit's value in a base of at most 16. -/
def digitValue (base : Nat) (ch : Char) : Option Nat :=
  let n := ch.toNat
  let d :=
    if 48 ≤ n ∧ n ≤ 57 then n - 48
    else if 97 ≤ n ∧ n ≤ 102 then n - 87
    else if 65 ≤ n ∧ n ≤ 70 then n - 55
    else base
  if d < base then some d else none

/-- A non-empty numeral. -/
def numeral (base : Nat) (cs : List Char) : Option Nat :=
  if cs.isEmpty then none
  else cs.foldl (fun acc ch => acc.bind fun n => (digitValue base ch).map (base * n + ·)) (some 0)

/-- A natural number in decimal or `0x` hexadecimal (rule R76). -/
def natLiteral : List Char → Option Nat
  | '0' :: 'x' :: cs => numeral 16 cs
  | cs => numeral 10 cs

/-- An integer: a natural number, or one after a minus sign. -/
def intLiteral : List Char → Option Int
  | '-' :: cs => (natLiteral cs).map fun n => -(n : Int)
  | cs => (natLiteral cs).map fun n => (n : Int)

/-- A separating character: its tokens, none for a space. -/
def separator : Char → Option (List Token)
  | ' ' => some []
  | '(' => some [.lpar]
  | ')' => some [.rpar]
  | ',' => some [.comma]
  | _ => none

/-- The token a scanned name or number stands for. -/
def ScanMode.token : ScanMode → Option (List Token)
  | .between => some []
  | .inName acc => some [.name acc.reverse]
  | .inNum acc => (intLiteral acc.reverse).map fun n => [.num n]
  | .inStr _ => none

/-- Scan a line into tokens. A text runs from one double quote to the next. -/
def scan : ScanMode → List Char → Option (List Token)
  | mode, [] => mode.token
  | .inStr acc, ch :: cs =>
    if ch = '"' then (scan .between cs).map (.str acc.reverse :: ·) else scan (.inStr (ch :: acc)) cs
  | .inName acc, ch :: cs =>
    match separator ch with
    | some ts => (scan .between cs).map fun rest => .name acc.reverse :: (ts ++ rest)
    | none => if ch.isAlphanum then scan (.inName (ch :: acc)) cs else none
  | .inNum acc, ch :: cs =>
    match separator ch, intLiteral acc.reverse with
    | some ts, some n => (scan .between cs).map fun rest => .num n :: (ts ++ rest)
    | some _, none => none
    | none, _ => if ch.isAlphanum then scan (.inNum (ch :: acc)) cs else none
  | .between, ch :: cs =>
    match separator ch with
    | some ts => (scan .between cs).map (ts ++ ·)
    | none =>
      if ch = '"' then scan (.inStr []) cs
      else if ch.isDigit || ch == '-' then scan (.inNum [ch]) cs
      else if ch.isAlpha then scan (.inName [ch]) cs
      else none

/-- A position operand followed by the closing parenthesis. -/
def posArgument : List Token → Option PosArg
  | [.num n, .rpar] => some (.number n)
  | [.name f, .lpar, .num n, .rpar, .rpar] => if f = "position".toList then some (.position n) else none
  | _ => none

/-- A register-select name. -/
def regSelName (cs : List Char) : Option RegSel :=
  if cs = "command".toList then some .command else if cs = "data".toList then some .data else none

/-- A backlight state name. -/
def backlightName (cs : List Char) : Option Backlight :=
  if cs = "OFF".toList then some .off else if cs = "ON".toList then some .on else none

/-- The command line that an operation's name and its tokens after the opening parenthesis make (rule R76). -/
def commandLine (f : List Char) (args : List Token) : Option SourceLine :=
  if f = "connect".toList then
    match args with
    | [.num a, .rpar] => some (.connect a)
    | _ => none
  else if f = "showString".toList then
    match args with
    | .str cs :: .comma :: rest => (posArgument rest).map (.showString cs)
    | _ => none
  else if f = "showNumber".toList then
    match args with
    | .num v :: .comma :: rest => (posArgument rest).map (.showNumber v)
    | _ => none
  else if f = "clear".toList then
    match args with
    | [.rpar] => some .clear
    | _ => none
  else if f = "setBacklight".toList then
    match args with
    | [.name cs, .rpar] => (backlightName cs).map .setBacklight
    | _ => none
  else if f = "writeNibble".toList then
    match args with
    | [.num v, .rpar] => some (.writeNibble v)
    | _ => none
  else if f = "send".toList then
    match args with
    | [.name cs, .comma, .num b, .rpar] => (regSelName cs).map fun rs => .send rs b
    | _ => none
  else if f = "sendCommand".toList then
    match args with
    | [.num b, .rpar] => some (.sendCommand b)
    | _ => none
  else if f = "sendData".toList then
    match args with
    | [.num b, .rpar] => some (.sendData b)
    | _ => none
  else if f = "setCursor".toList then
    match args with
    | [.num l, .comma, .num c, .rpar] => some (.setCursor l c)
    | _ => none
  else none

/-- Parse a line of text. -/
def parseLine (line : List Char) : Option SourceLine :=
  match scan .between line with
  | some (.name f :: .lpar :: args) => commandLine f args
  | _ => none

/-- Assemble a line of text into its packet. -/
def assembleText (line : List Char) : Option (List Byte) := (parseLine line).bind assemble

end Sys2Proof.Machine
end

