-- ==== Sys2Proof/Machine/Trace.lean ====
section
/-! DEFINITION. What is read off an event trace: its bus writes, counts and requested waits (rules R182 and R183),
its framed view (rule R12), and the traces the rules write out in closed form (rules R92, R103, R111, R123 and
R126). Nothing here takes part in a step; claims are stated with it. -/

namespace Sys2Proof.Machine

open Params

/-! ### Reading a trace -/

/-- The address and byte of a bus write, none for a wait. -/
def Event.write? : Event → Option (BusAddress × Byte)
  | .w a v => some (a, v)
  | .dus _ | .dms _ => none

/-- The bus writes of a trace, in order. -/
def busWrites (evs : List Event) : List (BusAddress × Byte) := evs.filterMap Event.write?

/-- The bytes written, in order (95_test_vectors.md, "Bytes"). -/
def writtenBytes (evs : List Event) : List Byte := (busWrites evs).map Prod.snd

/-- The wait an event requests, in microseconds (rule R182). -/
def Event.micros : Event → Nat
  | .w _ _ => 0
  | .dus n => n
  | .dms n => 1000 * n

/-- The sum of the requested waits of a trace, in microseconds (rule R182). -/
def requestedMicros (evs : List Event) : Nat := (evs.map Event.micros).sum

/-- A state with events appended to its trace and one transport answer discarded for each bus write among them;
everything else as before. -/
def State.extend (s : State) (evs : List Event) : State :=
  { s with log := evs.reverse ++ s.log, answers := s.answers.drop (busWrites evs).length }

/-! ### Closed forms -/

/-- The five events of one nibble transmission (rules R90 and R92). -/
def nibbleEvents (a : BusAddress) (v : Byte) : List Event :=
  [.w a (v &&& 0xFB), .w a (v ||| 0x04), .dus 1, .w a (v &&& 0xFB), .dus 50]

/-- One logical 8-bit write: its register-select and its byte. -/
abbrev LogicalWrite := RegSel × Byte

/-- The ten events of one frame (rule R103): the nibbles of the byte, high first, each with the backlight bit and the
register-select bit. -/
def frameEvents (a : BusAddress) (bl : Backlight) (f : LogicalWrite) : List Event :=
  let k : Byte := if bl = .on then 0x08 else 0x00
  let r : Byte := if f.1 = .data then 0x01 else 0x00
  nibbleEvents a ((f.2 &&& 0xF0) ||| k ||| r) ++ nibbleEvents a ((f.2 <<< 4) ||| k ||| r)

/-- The events of a sequence of frames. -/
def framesEvents (a : BusAddress) (bl : Backlight) (fs : List LogicalWrite) : List Event :=
  fs.flatMap (frameEvents a bl)

/-- The events of a sequence of frames on the current BUSADDR: none while it is unset (rule R91). -/
def guardedFrames (a : Option BusAddress) (bl : Backlight) (fs : List LogicalWrite) : List Event :=
  match a with
  | none => []
  | some a => framesEvents a bl fs

/-- The cursor command of a linear position 0..31 (the table of rule R49). -/
def positionCommand (p : Nat) : Byte :=
  if p < 16 then BitVec.ofNat 8 (0x80 + p) else BitVec.ofNat 8 (0xC0 + (p - 16))

/-- How many characters of a text fit from a position on: `min(len, 32 - pos)` (rule R123, corner case (f)). -/
def shownCount (text : List Byte) (pos : Nat) : Nat := min text.length (32 - pos)

/-- The frames of SHOWSTR (rules R123 and R126): the initial cursor command, then each character that fits, with the
command 0xC0 before the one meant for index 16 when that is not the first. -/
def textFrames (text : List Byte) (pos : Nat) : List LogicalWrite :=
  if 31 < pos then []
  else
    (.command, positionCommand pos) ::
      (List.range (shownCount text pos)).flatMap fun j =>
        (if pos + j = 16 ∧ j ≠ 0 then [(.command, 0xC0)] else []) ++ [(.data, text.getD j 0)]

/-- The byte CONNECT ORs into its init nibbles (rule R113). -/
def initBacklight (c : Config) (bl : Backlight) : Byte :=
  if c.initNibbleOrBacklight && decide (bl = .on) then 0x08 else 0x00

/-- The events of each state of the connect state machine (the table of rule R111). -/
def phaseEvents (c : Config) (a : BusAddress) (bl : Backlight) : Phase → List Event
  | .unconnected | .ready => []
  | .powerSettle => [.dms 50, .w a (if bl = .on then 0x08 else 0x00), .dms 50]
  | .forceReset =>
    let once := nibbleEvents a (0x30 ||| initBacklight c bl) ++ [.dus 4100]
    once ++ once ++ once
  | .fourBitSelect => nibbleEvents a (0x20 ||| initBacklight c bl) ++ [.dus 1000]
  | .functionSet => frameEvents a bl (.command, c.cmdFunctionSet) ++ [.dus 1000]
  | .displayControl => frameEvents a bl (.command, c.cmdDisplayCtrl) ++ [.dus 1000]
  | .entryModeSet => frameEvents a bl (.command, c.cmdEntryMode) ++ [.dus 1000]
  | .cleared => framesEvents a bl (textFrames (List.replicate 32 c.charSpace) 0)

/-- The states CONNECT goes through, in order (rule R111). -/
def connectPhases : List Phase :=
  [.powerSettle, .forceReset, .fourBitSelect, .functionSet, .displayControl, .entryModeSet, .cleared]

/-- The events of CONNECT with a non-negative address (rules R110 and R111). -/
def connectEvents (c : Config) (a : BusAddress) (bl : Backlight) : List Event :=
  connectPhases.flatMap (phaseEvents c a bl)

/-- The value PHASE holds while the event after the first `k` events of CONNECT is emitted (the numbering of
95_test_vectors.md, section 2.3). -/
def phaseAtEvent (k : Nat) : Phase :=
  if k < 3 then .powerSettle
  else if k < 21 then .forceReset
  else if k < 27 then .fourBitSelect
  else if k < 38 then .functionSet
  else if k < 49 then .displayControl
  else if k < 60 then .entryModeSet
  else if k < 400 then .cleared
  else .ready

/-- The events an operation appends in a state with the given BUSADDR and BL: the trace half of
`exec(OP, args) : State -> State × Trace` (rule R10), in closed form. -/
def traceOf (c : Config) (i : Instr) (a : Option BusAddress) (bl : Backlight) : List Event :=
  match i with
  | .connect addr => if addr.toInt < 0 then [] else connectEvents c (addr.truncate 7) bl
  | .showstr pos text => guardedFrames a bl (textFrames text pos.toNat)
  | .shownum pos v => guardedFrames a bl (textFrames (decimalString v.toInt) pos.toNat)
  | .clear => guardedFrames a bl (textFrames (List.replicate 32 c.charSpace) 0)
  | .setbl b => guardedFrames a b [(.command, 0x00)]
  | .wrnib v =>
    match a with
    | none => []
    | some a => nibbleEvents a v
  | .send rs p => guardedFrames a bl [(rs, p)]
  | .sendcmd p => guardedFrames a bl [(.command, p)]
  | .senddat p => guardedFrames a bl [(.data, p)]
  | .setcur line column => guardedFrames a bl [(.command, (if line = 0 then 0x80 else 0xC0) + column)]

/-! ### The framed view (rule R12) -/

/-- A nibble transmission as rule R12 reads it off five events. -/
structure NibbleSent where
  rs : Bool
  backlight : Bool
  nibble : BitVec 4
  deriving DecidableEq, Repr

/-- A trace with its nibble transmissions recognised; every other event stands for itself. -/
inductive NibbleToken where
  | sent (n : NibbleSent)
  | other (e : Event)
  deriving DecidableEq, Repr

/-- The framed view's tokens: a frame `C<hl>` or `D<hl>`, a single nibble transmission, or another event. -/
inductive FrameToken where
  | frame (rs : RegSel) (byte : Byte)
  | single (n : NibbleSent)
  | other (e : Event)
  deriving DecidableEq, Repr

/-- The pattern `W(a, v0) W(a, v1) Dus(1) W(a, v0) Dus(50)` with `v0[2] = 0` and `v1 = v0 | 0x04`. -/
def isNibbleAt (a₀ : BusAddress) (v₀ : Byte) (a₁ : BusAddress) (v₁ : Byte) (n₁ : Nat) (a₂ : BusAddress) (v₂ : Byte)
    (n₂ : Nat) : Bool :=
  decide (a₁ = a₀ ∧ a₂ = a₀ ∧ v₀[2] = false ∧ v₁ = v₀ ||| 0x04 ∧ v₂ = v₀ ∧ n₁ = 1 ∧ n₂ = 50)

/-- What the first written byte of a nibble transmission carries: RS in bit 0, the backlight in bit 3, the nibble in
bits 7:4. -/
def readNibble (v : Byte) : NibbleSent := ⟨v[0], v[3], v.extractLsb' 4 4⟩

/-- Recognise the nibble transmissions of a trace, from its first event on. -/
def nibbleTokens : List Event → List NibbleToken
  | .w a₀ v₀ :: .w a₁ v₁ :: .dus n₁ :: .w a₂ v₂ :: .dus n₂ :: rest =>
    if isNibbleAt a₀ v₀ a₁ v₁ n₁ a₂ v₂ n₂ then .sent (readNibble v₀) :: nibbleTokens rest
    else .other (.w a₀ v₀) :: nibbleTokens (.w a₁ v₁ :: .dus n₁ :: .w a₂ v₂ :: .dus n₂ :: rest)
  | e :: rest => .other e :: nibbleTokens rest
  | [] => []

/-- Two consecutive nibble transmissions with equal register-select form a frame. -/
def frameTokens : List NibbleToken → List FrameToken
  | .sent h :: .sent l :: rest =>
    if h.rs = l.rs then
      .frame (if h.rs then .data else .command) (h.nibble ++ l.nibble) :: frameTokens rest
    else .single h :: frameTokens (.sent l :: rest)
  | .sent h :: rest => .single h :: frameTokens rest
  | .other e :: rest => .other e :: frameTokens rest
  | [] => []

/-- The framed view of a trace. -/
def framedView (evs : List Event) : List FrameToken := frameTokens (nibbleTokens evs)

end Sys2Proof.Machine
end

