-- ==== Sys2Proof/Safety.lean ====
section
/-! DEFINITION. What counts as a safe run, in the terms claims use: the invariants of rules R23, R25, R26 and R30 on
the registers and the sequencer, and the minimum separations of rule R173 on a trace. -/

namespace Sys2Proof.Machine

/-! ### The session registers between operations -/

/-- Rule R30: between operations PHASE is Unconnected exactly while BUSADDR is unset, and Ready otherwise. -/
def State.sessionConsistent (s : State) : Bool :=
  (decide (s.phase = .unconnected) && s.busAddr.isNone) || (decide (s.phase = .ready) && s.busAddr.isSome)

/-! ### The sequencer during an operation -/

/-- The layer of a rule: a rule calls only rules of a lower layer (rules R2 and R26). -/
def Frame.rank : Frame → Nat
  | .wrnib _ _ => 0
  | .send _ _ _ => 1
  | .sendcmd _ _ | .senddat _ _ => 2
  | .setcur _ _ _ => 3
  | .showstr _ _ _ => 4
  | .shownum _ _ _ | .clear _ | .setbl _ _ => 5
  | .connect _ _ => 6

/-- The loop latches of SHOWSTR are within the text and, once the stop test has passed, within the display (rules R25
and R79 (b)). -/
def ShowstrPos.fits (c : Config) (pos : Byte) (text : List Byte) : ShowstrPos → Bool
  | .enter => true
  | .loop i => decide (pos.toNat ≤ 31 ∧ i ≤ text.length)
  | .firstTest i idx => decide (pos.toNat ≤ 31 ∧ i < text.length ∧ idx = pos.toNat + i)
  | .secondTest i idx =>
    decide (pos.toNat ≤ 31 ∧ i < text.length ∧ idx = pos.toNat + i ∧ (c.stopBeforeWrap = true → idx ≤ 31))
  | .char i idx => decide (pos.toNat ≤ 31 ∧ i < text.length ∧ idx = pos.toNat + i ∧ idx ≤ 31)

/-- The repeat counter REP of ForceReset counts 0, 1, 2, and configuration commands belong to three states (rules R23,
R25 and R111). -/
def ConnectPos.fits : ConnectPos → Bool
  | .force rep | .forceWait rep => decide (rep ≤ 2)
  | .config ph | .configWait ph => decide (ph = .functionSet ∨ ph = .displayControl ∨ ph = .entryModeSet)
  | .validate | .bind | .enter _ | .firstWait | .rawByte | .secondWait | .select | .selectWait | .clearCall
  | .leave => true

/-- Every latch holds a value of the range rule R25 gives it, most of them by their types. -/
def Frame.fits (c : Config) : Frame → Bool
  | .wrnib _ _ | .send _ _ _ | .sendcmd _ _ | .senddat _ _ | .setcur _ _ _ => true
  | .showstr pos text at_ => decide (text.length ≤ 255) && at_.fits c pos text
  | .shownum _ _ _ | .clear _ | .setbl _ _ => true
  | .connect _ at_ => at_.fits

/-- BUSADDR holds the address of CONNECT's operand. -/
def State.boundTo (s : State) (addr : Byte) : Bool :=
  !addressNegative addr && decide (s.busAddr = some (addressField addr))

/-- Where CONNECT stands fixes PHASE and BUSADDR: the address is bound before the first event, and PHASE holds the
value of rule R111 while the events of that state are emitted. -/
def State.connectConsistent (s : State) (addr : Byte) : ConnectPos → Bool
  | .validate => s.sessionConsistent
  | .bind => s.sessionConsistent && !addressNegative addr
  | .enter ph => s.boundTo addr && decide (ph = .powerSettle ∨ s.phase ≠ .ready ∧ s.phase.following = ph)
  | .firstWait | .rawByte | .secondWait => s.boundTo addr && decide (s.phase = .powerSettle)
  | .force _ | .forceWait _ => s.boundTo addr && decide (s.phase = .forceReset)
  | .select | .selectWait => s.boundTo addr && decide (s.phase = .fourBitSelect)
  | .config ph | .configWait ph => s.boundTo addr && decide (s.phase = ph)
  | .clearCall => s.boundTo addr && decide (s.phase = .cleared)
  | .leave => s.boundTo addr && decide (s.phase = .ready)

/-- The operation's own rule, the outermost, and the registers: while CONNECT runs they are as its position says,
and during every other operation they are as between operations. -/
def State.outerConsistent (s : State) : Frame → Bool
  | .connect addr at_ => s.connectConsistent addr at_
  | .wrnib _ _ | .send _ _ _ | .sendcmd _ _ | .senddat _ _ | .setcur _ _ _ | .showstr _ _ _ | .shownum _ _ _
  | .clear _ | .setbl _ _ => s.sessionConsistent

/-- The active rules are ones the sequencer can hold: each inside a rule of a higher layer, so at most seven (rule
R26), and every latch in its range. -/
def framesConsistent (c : Config) (fs : List Frame) : Bool :=
  decide (fs.Pairwise (fun f g => f.rank < g.rank)) && fs.all (Frame.fits c)

/-- The operation in progress is one the sequencer can be in: some rule is active, the active rules are consistent, and
the outermost agrees with the registers. -/
def State.operationConsistent (s : State) (o : Operation) : Bool :=
  framesConsistent Params.spec o.frames &&
    match o.frames.getLast? with
    | none => false
    | some outer => s.outerConsistent outer

/-- The invariant of the block: rule R30 between operations, and during one a consistent sequencer that stands
before an event. -/
def State.Inv (s : State) : Bool :=
  match s.running with
  | none => s.sessionConsistent
  | some o => s.operationConsistent o && s.settled Params.spec

/-! ### Minimum separations (rule R173) -/

/-- The waits rule R173 puts around the enable pulse, read along a trace with the level of the enable line before it:
a write that sets the enable bit is followed by a wait of at least 1 µs (T_EN), and one that clears it after it was
set by a wait of at least 50 µs (T_NIB). -/
def strobesTimed : (enable : Bool) → List Event → Bool
  | _, [] => true
  | enable, .w _ v :: rest =>
    (if v[2] then
      match rest with
      | .dus n :: _ => decide (1 ≤ n)
      | _ => false
    else if enable then
      match rest with
      | .dus n :: _ => decide (50 ≤ n)
      | _ => false
    else true) && strobesTimed v[2] rest
  | enable, .dus _ :: rest | enable, .dms _ :: rest => strobesTimed enable rest

end Sys2Proof.Machine
end

