-- ==== Sys2Proof/Certificates/Slice0/Obligations.lean ====
section
/-! DEFINITION. What is claimed of the model, one statement a definition; OBLIGATIONS.json lists them. Each docstring
names the rule of spec/ a statement formalises. In a statement, `s.extend evs` is `s` with the events `evs` appended to
its trace and one transport answer discarded for each bus write among them (log entry 5), and everything else as in `s`
(Machine/Trace.lean). -/

open Sys2Proof Sys2Proof.Machine

/-! ### Words used below -/

namespace Sys2Proof.Claims

/-- The registers a step of the operation view leaves: CONNECT with a non-negative address binds it and ends in Ready
(R110), SETBL stores its operand (R128), and no other operation writes a register (R120). -/
def registersAfter (i : Instr) (s : State) : State :=
  match i with
  | .connect addr => if addr.toInt < 0 then s else (s.setBusAddr (addr.truncate 7)).setPhase .ready
  | .setbl b => s.setBl b
  | .showstr _ _ | .shownum _ _ | .clear | .wrnib _ | .send _ _ | .sendcmd _ | .senddat _ | .setcur _ _ => s

/-- Sixteen blanks as data frames. -/
def blankLine : List LogicalWrite := List.replicate 16 (.data, 0x20)

/-- The frames of CLEAR: `C80`, 16 times `D20`, `CC0`, 16 times `D20` (R127). -/
def clearFrames : List LogicalWrite := (.command, 0x80) :: (blankLine.append ((.command, 0xC0) :: blankLine))

/-- A configuration command of CONNECT and its wait. -/
def configEvents (a : BusAddress) (bl : Backlight) (p : Byte) : List Event :=
  List.append (frameEvents a bl (.command, p)) [.dus 1000]

/-- The events of CONNECT in the order of the pseudocode of R110, with the byte `k` of the backlight bit. -/
def handshakeEvents (a : BusAddress) (bl : Backlight) : List Event :=
  let k : Byte := if bl = .on then 0x08 else 0x00
  let force : List Event := List.append (nibbleEvents a (0x30 ||| k)) [.dus 4100]
  let select : List Event := List.append (nibbleEvents a (0x20 ||| k)) [.dus 1000]
  List.flatten
    [[.dms 50, .w a k, .dms 50], force, force, force, select,
      configEvents a bl 0x28, configEvents a bl 0x0C, configEvents a bl 0x06, framesEvents a bl clearFrames]

/-- The number of frames of SHOWSTR, `1 + n + w` (R123, corner case (f)), none beyond the display. -/
def showFrameCount (text : List Byte) (pos : Nat) : Nat :=
  if 31 < pos then 0
  else
    let n := min text.length (32 - pos)
    1 + n + (if pos < 16 ∧ 16 < pos + n then 1 else 0)

/-- A row of the tables of R182 and R183. -/
structure Cost where
  events : Nat
  writes : Nat
  dus1 : Nat
  dus50 : Nat
  dms50 : Nat
  dus4100 : Nat
  dus1000 : Nat
  micros : Nat
  deriving DecidableEq, Repr

/-- What a trace costs. -/
def costOf (evs : List Event) : Cost where
  events := evs.length
  writes := (busWrites evs).length
  dus1 := evs.count (.dus 1)
  dus50 := evs.count (.dus 50)
  dms50 := evs.count (.dms 50)
  dus4100 := evs.count (.dus 4100)
  dus1000 := evs.count (.dus 1000)
  micros := requestedMicros evs

/-- The row of an operation of `f` frames. -/
def frameCost (f : Nat) : Cost := ⟨10 * f, 6 * f, 2 * f, 2 * f, 0, 0, 0, 102 * f⟩

/-- The tables of R182 and R183, with BUSADDR set where the operation is not CONNECT. -/
def tableCost : Instr → Cost
  | .wrnib _ => ⟨5, 3, 1, 1, 0, 0, 0, 51⟩
  | .send _ _ | .sendcmd _ | .senddat _ | .setcur _ _ | .setbl _ => frameCost 1
  | .showstr pos text => frameCost (showFrameCount text pos.toNat)
  | .shownum pos v => frameCost (showFrameCount (decimalString v.toInt) pos.toNat)
  | .clear => frameCost 34
  | .connect addr => if addr.toInt < 0 then frameCost 0 else ⟨400, 235, 78, 78, 2, 3, 4, 120278⟩

/-- R74 in terms of bytes: (a) empty, (b) a reserved opcode, (c) a wrong length, (d) a bad state byte of SETBL, (e) a
bad rs byte of SEND. -/
def malformed (bs : List Byte) : Prop :=
  bs = [] ∨ ∃ opc rest, bs = opc :: rest ∧
    (opc ∉ [0x01, 0x02, 0x03, 0x04, 0x05, 0x10, 0x11, 0x12, 0x13, 0x14] ∨
      opc = 0x04 ∧ bs.length ≠ 1 ∨
      opc ∈ [0x01, 0x05, 0x10, 0x12, 0x13] ∧ bs.length ≠ 2 ∨
      opc ∈ [0x11, 0x14] ∧ bs.length ≠ 3 ∨
      opc = 0x03 ∧ bs.length ≠ 6 ∨
      opc = 0x02 ∧ (bs.length < 3 ∨ bs.length ≠ 3 + (bs.getD 2 0).toNat) ∨
      opc = 0x05 ∧ bs.length = 2 ∧ bs.getD 1 0 ∉ [0x00, 0x01] ∨
      opc = 0x11 ∧ bs.length = 3 ∧ bs.getD 1 0 ∉ [0x00, 0x01])

/-- The trace of operations run one after another, each from the registers the one before leaves. -/
def programTrace : List Instr → State → List Event
  | [], _ => []
  | i :: rest, s =>
    traceOf Params.spec i s.busAddr s.bl ++ programTrace rest (registersAfter i s)

/-- Operations run one after another in the operation view. -/
def runAll : List Instr → State → Host.Outcome State Fault Refusal
  | [], s => .next s
  | i :: rest, s =>
    match exec i s with
    | .next t => runAll rest t
    | .fault r => .fault r
    | .refused r => .refused r

end Sys2Proof.Claims

open Sys2Proof.Claims

/-! ### Reset -/

/-- R29: the reset state of every piece of state, and the block then waits for the first packet. -/
def Obligations.ResetStateOfEveryRegister : Prop :=
  State.reset.busAddr = none ∧ busAddrImage State.reset.busAddr = 0xFF ∧
  State.reset.bl = .on ∧ blImage State.reset.bl = 1 ∧ blBits State.reset.bl = 0x08 ∧
  State.reset.phase = .unconnected ∧ phaseImage State.reset.phase = 0 ∧
  State.reset.busy = false ∧ State.reset.running = none ∧ State.reset.trace = [] ∧
  step State.reset = .next State.reset

/-- An asserted reset input forces the reset state at any time and emits no event (70_reset_and_hazards.md section 1).
The model's choice: when a counted reset is due, that the trace and the answers are kept, and that the input is
consumed (log entry 4). -/
def Obligations.ResetInputForcesResetState : Prop :=
  ∀ (s : State) (n : Nat) (rest : List HostInput),
    s.inputs = .reset n :: rest → (s.busy = false ∨ n = 0) →
    ∃ t, step s = .next t ∧ t.busAddr = none ∧ t.bl = .on ∧ t.phase = .unconnected ∧ t.busy = false ∧
      t.running = none ∧ t.trace = s.trace ∧ t.answers = s.answers ∧ t.inputs = rest

/-- R171: a reset during an operation, in the event view. Accepting the packet is one step, each of the `k` events
before the reset one more, the reset the last: this count of `k + 2` steps is the model's choice (log entries 4 and 8).
The first `k` events of the operation stay in the trace, no further one is emitted, and the block is in the reset
state. -/
def Obligations.ResetAbandonsOperationAtEvent : Prop :=
  ∀ (i : Instr) (s u : State) (evs : List Event) (k : Nat) (rest : List HostInput),
    i.wf = true → s.running = none → s.view = .event →
    s.inputs = .packet (encode i) :: .reset k :: rest →
    exec i s = .next u → u.trace = s.trace ++ evs → k ≤ evs.length →
    ∃ t, Sys2Proof.core.run (k + 2) s = .next t ∧ t.trace = s.trace ++ evs.take k ∧
      t.busAddr = none ∧ t.bl = .on ∧ t.phase = .unconnected ∧ t.busy = false ∧ t.inputs = rest

/-- The register images of 10_state.md section 2. -/
def Obligations.RegisterImages : Prop :=
  busAddrImage none = 0xFF ∧
  (∀ a : BusAddress, (busAddrImage (some a))[7] = false ∧ (busAddrImage (some a)).toNat = a.toNat) ∧
  blImage .off = 0 ∧ blImage .on = 1 ∧
  [Phase.unconnected, .powerSettle, .forceReset, .fourBitSelect, .functionSet, .displayControl, .entryModeSet,
    .cleared, .ready].map (fun ph => (phaseImage ph).toNat) = [0, 1, 2, 3, 4, 5, 6, 7, 8]

/-! ### The nibble transport -/

/-- R90: WRNIB in both cases of its guard, its packet, and that bit 2 of the operand is ignored. -/
def Obligations.WrnibStrobesExpanderByte : Prop :=
  ∀ (v : Byte) (s : State),
    encode (.wrnib v) = [0x10, v] ∧
    exec (.wrnib v) s =
      .next (s.extend
        (match s.busAddr with
          | none => []
          | some a => [.w a (v &&& 0xFB), .w a (v ||| 0x04), .dus 1, .w a (v &&& 0xFB), .dus 50])) ∧
    exec (.wrnib (v &&& 0xFB)) s = exec (.wrnib v) s ∧
    exec (.wrnib (v ||| 0x04)) s = exec (.wrnib v) s

/-- R92: the shape of a nibble transmission, and bus writes in threes (CONNECT: and the raw backlight byte). -/
def Obligations.NibbleTransmissionShape : Prop :=
  (∀ (v : Byte) (s : State) (a : BusAddress), s.busAddr = some a →
    ∃ t v₀ v₁, exec (.wrnib v) s = .next t ∧
      t.trace = s.trace ++ [.w a v₀, .w a v₁, .dus 1, .w a v₀, .dus 50] ∧
      v₀[2] = false ∧ v₁[2] = true ∧
      ∀ b < 8, b ≠ 2 → v₀.getLsbD b = v.getLsbD b ∧ v₁.getLsbD b = v.getLsbD b) ∧
  (∀ (i : Instr) (s : State), ∃ t evs, exec i s = .next t ∧ t.trace = s.trace ++ evs ∧
    (busWrites evs).length % 3 =
      match i with
      | .connect addr => if addr.toInt < 0 then 0 else 1
      | _ => 0)

/-! ### The framer -/

/-- R63: the nibble split, of which only bits 7:0 of the payload take part, and which loses none of them. -/
def Obligations.NibbleSplitUsesLowByte : Prop :=
  ∀ p : Nat,
    hiNibble p = BitVec.ofNat 8 p &&& 0xF0 ∧ loNibble p = BitVec.ofNat 8 p <<< 4 ∧
    hiNibble p = hiNibble (p % 256) ∧ loNibble p = loNibble (p % 256) ∧
    hiNibble p ||| (loNibble p >>> 4) = BitVec.ofNat 8 p

/-- The fields of the expander byte that SEND composes (30_encoding.md section 2). -/
def Obligations.FramedNibbleFields : Prop :=
  ∀ (p : Byte) (bl : Backlight) (rs : RegSel),
    let h := framedNibble (hiNibble p.toNat) bl rs
    let l := framedNibble (loNibble p.toNat) bl rs
    h.extractLsb' 4 4 = p.extractLsb' 4 4 ∧ l.extractLsb' 4 4 = p.extractLsb' 0 4 ∧
    h[3] = decide (bl = .on) ∧ l[3] = decide (bl = .on) ∧ h[2] = false ∧ l[2] = false ∧
    h[1] = false ∧ l[1] = false ∧ h[0] = decide (rs = .data) ∧ l[0] = decide (rs = .data)

/-- R100: SEND's packet, its two nibble transmissions with the backlight and register-select bits ORed in, nothing
while BUSADDR is unset, and the truncation of a payload wider than 8 bits. -/
def Obligations.SendFramesHighNibbleFirst : Prop :=
  ∀ (rs : RegSel) (p : Byte) (s : State),
    let k : Byte := if s.bl = .on then 0x08 else 0x00
    let r : Byte := if rs = .data then 0x01 else 0x00
    encode (.send rs p) = [0x11, r, p] ∧
    exec (.send rs p) s =
      .next (s.extend
        (match s.busAddr with
          | none => []
          | some a =>
            nibbleEvents a ((p &&& 0xF0) ||| k ||| r) ++ nibbleEvents a (((p <<< 4) &&& 0xF0) ||| k ||| r))) ∧
    ∀ wide : Nat, BitVec.ofNat 8 wide = p → exec (.send rs p) s = .next (send rs wide s)

/-- R101: SENDCMD is SEND with register-select = command. -/
def Obligations.SendcmdIsCommandFraming : Prop :=
  ∀ (p : Byte) (s : State),
    encode (.sendcmd p) = [0x12, p] ∧
    ∃ t, exec (.send .command p) s = .next t ∧ exec (.sendcmd p) s = .next t

/-- R102: SENDDAT is SEND with register-select = data, and there are no other two framings. -/
def Obligations.SenddatIsDataFraming : Prop :=
  ∀ (p : Byte) (s : State),
    encode (.senddat p) = [0x13, p] ∧
    (∃ t, exec (.send .data p) s = .next t ∧ exec (.senddat p) s = .next t) ∧
    ∀ rs : RegSel, rs = .command ∨ rs = .data

/-- R103: two nibble transmissions a frame, the high nibble then the low one, ten events, 102 µs; and nothing while
BUSADDR is unset. -/
def Obligations.FrameIsTwoTransmissions : Prop :=
  ∀ (rs : RegSel) (p : Byte) (i : Instr) (s : State),
    i ∈ [Instr.send rs p, if rs = .command then .sendcmd p else .senddat p] →
    ∃ t, exec i s = .next t ∧
      match s.busAddr with
      | none => t = s
      | some a => ∃ h l : Byte,
          t = s.extend (nibbleEvents a h ++ nibbleEvents a l) ∧
          h.extractLsb' 4 4 = p.extractLsb' 4 4 ∧ l.extractLsb' 4 4 = p.extractLsb' 0 4 ∧
          costOf (nibbleEvents a h ++ nibbleEvents a l) = ⟨10, 6, 2, 2, 0, 0, 0, 102⟩

/-- R104: bit 3 of every byte written, by every operation but a host-issued WRNIB, is the backlight state the
operation ends with. -/
def Obligations.BacklightBitOnEveryWrite : Prop :=
  ∀ (i : Instr) (s : State), (∀ v, i ≠ .wrnib v) →
    ∃ t evs, exec i s = .next t ∧ t.trace = s.trace ++ evs ∧
      ∀ w ∈ busWrites evs, w.2[3] = decide (t.bl = .on)

/-- R32: bit 1 of every byte written is 0, but for WRNIB, which passes its operand's bit 1 through. -/
def Obligations.BitOneOnlyFromHostWrnib : Prop :=
  ∀ (i : Instr) (s : State),
    ∃ t evs, exec i s = .next t ∧ t.trace = s.trace ++ evs ∧
      ∀ w ∈ busWrites evs, w.2[1] =
        match i with
        | .wrnib v => v[1]
        | _ => false

/-! ### CONNECT -/

/-- R112: a negative address is ignored, whatever the state, and the test is bit 7 of the operand byte. -/
def Obligations.NegativeAddressIgnored : Prop :=
  ∀ (addr : Byte) (s : State),
    (addr.toInt < 0 ↔ addr[7] = true) ∧ (addr.toInt < 0 → exec (.connect addr) s = .next s)

/-- R110: CONNECT's packet, its address test, the registers it writes and the whole sequence of its events. -/
def Obligations.ConnectReplaysHandshake : Prop :=
  ∀ (addr : Byte) (s : State),
    encode (.connect addr) = [0x01, addr] ∧
    exec (.connect addr) s =
      if addr.toInt < 0 then .next s
      else .next (((s.setBusAddr (addr.truncate 7)).setPhase .ready).extend
        (handshakeEvents (addr.truncate 7) s.bl))

/-- R113, and the handshake for every value of every named parameter: the init nibbles carry `b`, the configuration
commands and the blank are the parameters' bytes. -/
def Obligations.HandshakeForEveryParameter : Prop :=
  ∀ (c : Config) (addr : Byte) (s : State), 0 ≤ addr.toInt →
    connect c addr s =
      ((s.setBusAddr (addr.truncate 7)).setPhase .ready).extend (connectEvents c (addr.truncate 7) s.bl) ∧
    initBits c s.bl = if c.initNibbleOrBacklight = true ∧ s.bl = .on then 0x08 else 0x00

/-- CONNECT does the same whatever BUSADDR and PHASE hold, and every write goes to the new address (42_connect_init.md,
CONNECT when already connected). The sequence itself is ConnectReplaysHandshake, PHASE along it PhaseDuringConnect. -/
def Obligations.ReconnectOverwritesAddress : Prop :=
  ∀ (addr : Byte) (s : State) (old : Option BusAddress) (ph : Phase), 0 ≤ addr.toInt →
    ∃ t evs, exec (.connect addr) s = .next t ∧
      exec (.connect addr) { s with busAddr := old, phase := ph } = .next t ∧
      t.busAddr = some (addr.truncate 7) ∧ t.phase = .ready ∧ t.bl = s.bl ∧
      t.trace = s.trace ++ evs ∧ evs.length = 400 ∧ ∀ w ∈ busWrites evs, w.1 = addr.truncate 7

/-- R111: in the event view, the value PHASE holds when `k` events of CONNECT have been emitted and the next is about to
be; the registers and the trace at that point. -/
def Obligations.PhaseDuringConnect : Prop :=
  ∀ (addr : Byte) (s : State) (k : Nat), s.running = none → 0 ≤ addr.toInt → k ≤ 400 →
    let t := (s.accept Params.spec (.connect addr)).ticks Params.spec k
    t.phase = phaseAtEvent k ∧ t.busAddr = some (addr.truncate 7) ∧ t.bl = s.bl ∧
      t.trace = s.trace ++ (connectEvents Params.spec (addr.truncate 7) s.bl).take k

/-! ### The display operations -/

/-- The map from linear positions to cursor commands (20_memory.md section 4). -/
def Obligations.PositionToCommandMap : Prop :=
  ∀ p < 32,
    lineOf p = p / 16 ∧ columnOf p = p % 16 ∧
    cursorCommand (lineOf p) (columnOf p) = (if p < 16 then 0x80 + p else 0xC0 + (p - 16)) ∧
    ¬ (0x90 ≤ cursorCommand (lineOf p) (columnOf p) ∧ cursorCommand (lineOf p) (columnOf p) ≤ 0xBF)

/-- R121: SETCUR's packet, and that it is SENDCMD of the integer sum of base and column, for every line and column. -/
def Obligations.SetcurSendsDdramAddress : Prop :=
  ∀ (line column : Byte) (s : State),
    encode (.setcur line column) = [0x14, line, column] ∧
    ∃ t, exec (.setcur line column) s = .next t ∧
      exec (.sendcmd (BitVec.ofNat 8 ((if line = 0 then 0x80 else 0xC0) + column.toNat))) s = .next t

/-- R123: SHOWSTR's packet and its frames in closed form. -/
def Obligations.ShowstrWritesAndWraps : Prop :=
  ∀ (pos : Byte) (text : List Byte) (s : State),
    encode (.showstr pos text) = 0x02 :: pos :: BitVec.ofNat 8 text.length :: text ∧
    exec (.showstr pos text) s =
      .next (s.extend (guardedFrames s.busAddr s.bl (textFrames text pos.toNat)))

/-- R126 and the framed view of R12: what is read off the trace of a SHOWSTR is the sequence of its frames. -/
def Obligations.ShowstrFramedView : Prop :=
  ∀ (pos : Byte) (text : List Byte) (s : State) (a : BusAddress), s.busAddr = some a →
    ∃ t evs, exec (.showstr pos text) s = .next t ∧ t.trace = s.trace ++ evs ∧
      framedView evs = (textFrames text pos.toNat).map fun f => .frame f.1 f.2

/-- No data write beyond index 31 and no cursor command outside the two lines (43_display_ops.md, the properties (a)
and (e) of the family), read off the framed view. -/
def Obligations.TextStaysOnDisplay : Prop :=
  ∀ (pos : Byte) (text : List Byte) (s : State) (a : BusAddress), s.busAddr = some a →
    ∃ t evs, exec (.showstr pos text) s = .next t ∧ t.trace = s.trace ++ evs ∧
      ((framedView evs).filterMap fun tok =>
        match tok with
        | .frame .data b => some b
        | _ => none) = text.take (32 - pos.toNat) ∧
      ∀ tok ∈ framedView evs, (∃ b, tok = .frame .data b) ∨
        ∃ b : Byte, tok = .frame .command b ∧
          (0x80 ≤ b.toNat ∧ b.toNat ≤ 0x8F ∨ 0xC0 ≤ b.toNat ∧ b.toNat ≤ 0xCF)

/-- R124: SHOWNUM's packet, that it is SHOWSTR of the decimal string, and the longest string. -/
def Obligations.ShownumDelegatesToShowstr : Prop :=
  ∀ (pos : Byte) (v : Word32) (s : State),
    encode (.shownum pos v) =
      [0x03, pos, v.extractLsb' 0 8, v.extractLsb' 8 8, v.extractLsb' 16 8, v.extractLsb' 24 8] ∧
    (∃ t, exec (.shownum pos v) s = .next t ∧ exec (.showstr pos (decimalString v.toInt)) s = .next t) ∧
    (decimalString v.toInt).length ≤ 11

/-- R125: `decimalString` is the canonical numeral of every integer. -/
def Obligations.DecimalStringIsCanonical : Prop :=
  ∀ v : Int, ∃ ds : List Nat,
    ds ≠ [] ∧ (∀ d ∈ ds, d < 10) ∧ (ds.head? = some 0 → ds = [0]) ∧
    ds.foldl (fun n d => 10 * n + d) 0 = v.natAbs ∧
    decimalString v = (if v < 0 then [0x2D] else []) ++ ds.map (fun d => BitVec.ofNat 8 (0x30 + d))

/-- R127: CLEAR's packet, that it is SHOWSTR of 32 spaces at 0, and its frames. -/
def Obligations.ClearWritesBlanks : Prop :=
  ∀ s : State,
    encode .clear = [0x04] ∧
    exec .clear s = exec (.showstr 0 (List.replicate 32 0x20)) s ∧
    exec .clear s = .next (s.extend (guardedFrames s.busAddr s.bl clearFrames)) ∧
    ∀ a bl, costOf (framesEvents a bl clearFrames) = frameCost 34

/-- R128: SETBL's packet, that BL is written first and whatever BUSADDR holds, and that one frame of command 0x00 then
carries the new bit. -/
def Obligations.SetblStoresThenPushes : Prop :=
  ∀ (b : Backlight) (s : State),
    encode (.setbl b) = [0x05, if b = .on then 0x01 else 0x00] ∧
    exec (.setbl b) s = .next ((s.setBl b).extend (guardedFrames s.busAddr b [(.command, 0x00)]))

/-- The parameter STOP_BEFORE_WRAP (92_eei_decisions.md, decision D7): the order not taken sends one command 0xC0 more,
exactly for a text that reaches index 32. -/
def Obligations.OtherTestOrderSendsOneMore : Prop :=
  ∀ (c : Config) (text : List Byte) (pos : Nat) (s : State), c.stopBeforeWrap = false →
    showStr c text pos s =
      s.extend (guardedFrames s.busAddr s.bl
        (textFrames text pos ++ if pos ≤ 31 ∧ 32 < pos + text.length then [(.command, 0xC0)] else []))

/-! ### All operations -/

/-- The operation-atomic view of every operation in closed form (00_scope.md section 5): the registers its rule
writes and the events its rule appends, and nothing else. -/
def Obligations.EveryOperationInClosedForm : Prop :=
  ∀ (i : Instr) (s : State),
    exec i s = .next ((registersAfter i s).extend (traceOf Params.spec i s.busAddr s.bl))

/-- R150: nothing is ever raised: every operation and every step answers a next state. -/
def Obligations.NothingIsEverRaised : Prop :=
  (∀ (i : Instr) (s : State), ∃ t, exec i s = .next t) ∧ ∀ s : State, ∃ t, step s = .next t

/-- The frame of every operation (10_state.md sections 1 to 3): which registers change, that the events already in the
trace stay, and that the transient state and the pending inputs are no operation's. That each bus write takes one answer
of the transport and discards it is 20_memory.md section 2, in the form the model chose for the answers (log entry
5). -/
def Obligations.RegistersOnlyTheirWriterChanges : Prop :=
  ∀ (i : Instr) (s : State), ∃ t evs,
    exec i s = .next t ∧ t.trace = s.trace ++ evs ∧ t.answers = s.answers.drop (busWrites evs).length ∧
    t.running = s.running ∧ t.inputs = s.inputs ∧ t.view = s.view ∧
    ((∀ addr, i ≠ .connect addr) → t.busAddr = s.busAddr ∧ t.phase = s.phase) ∧
    ((∀ b, i ≠ .setbl b) → t.bl = s.bl)

/-- R31 and R151: while BUSADDR is unset, every operation but CONNECT with a non-negative address runs to its end with
no event, and on state only SETBL has an effect. -/
def Obligations.SilentWhileAddressUnset : Prop :=
  ∀ (i : Instr) (s : State), s.busAddr = none → (∀ addr, i = .connect addr → addr.toInt < 0) →
    exec i s = .next (match i with | .setbl b => s.setBl b | _ => s)

/-- R152: the invalid inputs and their silent results. -/
def Obligations.InvalidInputIgnored : Prop :=
  (∀ (addr : Byte) (s : State), addr.toInt < 0 → exec (.connect addr) s = .next s) ∧
  (∀ (pos : Byte) (text : List Byte) (v : Word32) (s : State), 31 < pos.toNat →
    exec (.showstr pos text) s = .next s ∧ exec (.shownum pos v) s = .next s) ∧
  (∀ (pos : Byte) (text : List Byte) (s : State),
    ∃ t, exec (.showstr pos text) s = .next t ∧ exec (.showstr pos (text.take (32 - pos.toNat))) s = .next t) ∧
  (∀ (bs : List Byte) (s : State) (rest : List HostInput), malformed bs → s.running = none →
    s.inputs = .packet bs :: rest → step s = .next (s.setInputs rest))

/-- R43 and R153: the transport's answers change nothing but the list of answers themselves, in a whole operation and
in each of its events. The list, and that a bus write takes its first, are the model's form (log entry 5). -/
def Obligations.TransportAnswersUnread : Prop :=
  ∀ (i : Instr) (s : State) (answers : List BusAnswer), ∃ t evs,
    exec i s = .next t ∧ t.trace = s.trace ++ evs ∧
    exec i { s with answers := answers } =
      .next { t with answers := answers.drop (busWrites evs).length } ∧
    ∃ rest, State.tick Params.spec { s with answers := answers } = { s.tick Params.spec with answers := rest }

/-- Every bus write goes to the address BUSADDR holds (20_memory.md sections 2 and 4). -/
def Obligations.WritesGoToBoundAddress : Prop :=
  ∀ (i : Instr) (s : State), ∃ t evs,
    exec i s = .next t ∧ t.trace = s.trace ++ evs ∧ ∀ w ∈ busWrites evs, t.busAddr = some w.1

/-- The trace of a sequence of operations is the concatenation of their traces, each a function of the registers alone
(20_memory.md section 5; 10_state.md section 2: no cursor is remembered). -/
def Obligations.TracesConcatenate : Prop :=
  ∀ (is : List Instr) (s : State), ∃ t, runAll is s = .next t ∧ t.trace = s.trace ++ programTrace is s

/-- R183: the events, bus writes and requested waits of every operation, with BUSADDR set and with it unset; the sums
of the waits are those of R182. -/
def Obligations.CostOfEveryOperation : Prop :=
  ∀ (i : Instr) (s : State),
    ∃ t evs, exec i s = .next t ∧ t.trace = s.trace ++ evs ∧
      costOf evs = if s.busAddr = none ∧ (∀ addr, i ≠ .connect addr) then frameCost 0 else tableCost i

/-- The separations T_EN and T_NIB of 70_reset_and_hazards.md section 3, in the trace of every operation. -/
def Obligations.EnablePulsesKeepTheirTimes : Prop :=
  ∀ (i : Instr) (s : State), ∃ t evs,
    exec i s = .next t ∧ t.trace = s.trace ++ evs ∧ strobesTimed false evs = true

/-- The parameter UNSET_GUARD_SCOPE (92_eei_decisions.md, decision D5): the reading not taken makes SETBL a no-op on
state as well while the address is unset, and changes nothing once it is set. -/
def Obligations.OtherGuardScopeKeepsBacklight : Prop :=
  ∀ (c : Config) (b : Backlight) (s : State), c.guardScope = .allOperations →
    setBacklight c b s =
      match s.busAddr with
      | none => s
      | some _ => (s.setBl b).extend (guardedFrames s.busAddr b [(.command, 0x00)])

/-- No rule reads PHASE (10_state.md section 2): with another value in it, an operation and each single event of one
do the same to everything else. -/
def Obligations.PhaseIsNeverRead : Prop :=
  ∀ (s : State) (ph : Phase),
    (∀ i : Instr, ∃ t ph', exec i s = .next t ∧ exec i (s.setPhase ph) = .next (t.setPhase ph')) ∧
    ∃ ph', (s.setPhase ph).tick Params.spec = (s.tick Params.spec).setPhase ph'

/-! ### The packet -/

/-- R75: `encode` is a right inverse of `decode` on well-formed commands; the operand bytes of SETBL, SEND and
CONNECT. SHOWNUM's value is the statement PacketOperandByteOrder. -/
def Obligations.DecodeOfEncode : Prop :=
  (∀ i : Instr, i.wf = true → decode (encode i) = .cmd i) ∧
  decode [0x05, 0x00] = .cmd (.setbl .off) ∧ decode [0x05, 0x01] = .cmd (.setbl .on) ∧
  (∀ p : Byte, decode [0x11, 0x00, p] = .cmd (.send .command p) ∧ decode [0x11, 0x01, p] = .cmd (.send .data p)) ∧
  ∀ b : Byte, ∃ addr : Byte, decode [0x01, b] = .cmd (.connect addr) ∧
    -128 ≤ addr.toInt ∧ addr.toInt ≤ 127 ∧ (b.toNat : Int) = addr.toInt % 256

/-- The other direction: a packet that decodes to a command is that command's packet, and the command is
well-formed (30_encoding.md section 4). -/
def Obligations.EncodeOfDecode : Prop :=
  ∀ (bs : List Byte) (i : Instr), decode bs = .cmd i → i.wf = true ∧ encode i = bs

/-- R74: exactly the malformed packets are ignored; the idle block takes one and changes nothing. -/
def Obligations.MalformedPacketsIgnored : Prop :=
  (∀ bs : List Byte, (∃ why, decode bs = .ignored why) ↔ malformed bs) ∧
  ∀ (bs : List Byte) (s : State) (rest : List HostInput), malformed bs → s.running = none →
    s.inputs = .packet bs :: rest → step s = .next (s.setInputs rest)

/-- R56: SHOWNUM's value is little-endian two's complement, and a text is in reading order. -/
def Obligations.PacketOperandByteOrder : Prop :=
  (∀ pos b2 b3 b4 b5 : Byte, ∃ v : Word32,
    decode [0x03, pos, b2, b3, b4, b5] = .cmd (.shownum pos v) ∧
    v.toInt = Int.bmod (b2.toNat + 256 * b3.toNat + 65536 * b4.toNat + 16777216 * b5.toNat) (2 ^ 32)) ∧
  ∀ (pos len : Byte) (text : List Byte), text.length = len.toNat →
    decode (0x02 :: pos :: len :: text) = .cmd (.showstr pos text)

/-- Packets of 95_test_vectors.md section 2.5, written out, and what they stand for. -/
def Obligations.WrittenOutPacketsDecode : Prop :=
  decode [0x01, 0x27] = .cmd (.connect 39) ∧ decode [0x01, 0xFF] = .cmd (.connect (-1)) ∧
  decode [0x02, 0x0F, 0x02, 0x48, 0x49] = .cmd (.showstr 15 [0x48, 0x49]) ∧
  decode [0x03, 0x1E, 0xD6, 0xFF, 0xFF, 0xFF] = .cmd (.shownum 30 (-42)) ∧
  decode [0x04] = .cmd .clear ∧ decode [0x05, 0x01] = .cmd (.setbl .on) ∧
  decode [0x10, 0x3C] = .cmd (.wrnib 0x3C) ∧ decode [0x11, 0x01, 0x48] = .cmd (.send .data 0x48) ∧
  decode [0x12, 0x28] = .cmd (.sendcmd 0x28) ∧ decode [0x13, 0x41] = .cmd (.senddat 0x41) ∧
  decode [0x14, 0x01, 0x00] = .cmd (.setcur 1 0)

/-- R78: `public_surface` holds exactly for the five operations of D0's table that have packets. -/
def Obligations.PublicSurfaceMembers : Prop :=
  ∀ i : Instr, i.publicSurface = true ↔
    (∃ addr, i = .connect addr) ∨ (∃ pos text, i = .showstr pos text) ∨ (∃ pos v, i = .shownum pos v) ∨
      i = .clear ∨ ∃ b, i = .setbl b

/-- The packet of each line of the assembler syntax, and that operands outside the ranges its table shows cannot be
assembled (30_encoding.md section 5). The model's choice: the range 0..255 of showNumber's position and of the operands
of writeNibble, send, sendCommand, sendData and setCursor, for which the table shows none (log entry 18), and the code a
character above 0x7F stands for (log entry 25). -/
def Obligations.AssemblerPackets : Prop :=
  (∀ a : Int, (-128 ≤ a ∧ a ≤ 127 → ∃ b : Byte, assemble (.connect a) = some [0x01, b] ∧ b.toInt = a) ∧
    (a < -128 ∨ 127 < a → assemble (.connect a) = none)) ∧
  (∀ (text : List Char) (p : Int),
    (text.length ≤ 255 ∧ (∀ ch ∈ text, ch.toNat ≤ 255) ∧ 0 ≤ p ∧ p ≤ 255 → ∃ pb lb : Byte,
      assemble (.showString text (.number p)) =
        some (0x02 :: pb :: lb :: text.map fun ch => BitVec.ofNat 8 ch.toNat) ∧
      pb.toNat = p ∧ lb.toNat = text.length) ∧
    (255 < text.length ∨ (∃ ch ∈ text, 255 < ch.toNat) ∨ p < 0 ∨ 255 < p →
      assemble (.showString text (.number p)) = none)) ∧
  (∀ v p : Int,
    (-2147483648 ≤ v ∧ v ≤ 2147483647 ∧ 0 ≤ p ∧ p ≤ 255 → ∃ (pb : Byte) (w : Word32),
      assemble (.showNumber v (.number p)) = some (encode (.shownum pb w)) ∧ pb.toNat = p ∧ w.toInt = v) ∧
    (v < -2147483648 ∨ 2147483647 < v ∨ p < 0 ∨ 255 < p → assemble (.showNumber v (.number p)) = none)) ∧
  assemble .clear = some [0x04] ∧
  assemble (.setBacklight .off) = some [0x05, 0x00] ∧ assemble (.setBacklight .on) = some [0x05, 0x01] ∧
  (∀ n : Int,
    (0 ≤ n ∧ n ≤ 255 → ∃ b : Byte, b.toNat = n ∧
      assemble (.writeNibble n) = some [0x10, b] ∧
      assemble (.send .command n) = some [0x11, 0x00, b] ∧ assemble (.send .data n) = some [0x11, 0x01, b] ∧
      assemble (.sendCommand n) = some [0x12, b] ∧ assemble (.sendData n) = some [0x13, b]) ∧
    (n < 0 ∨ 255 < n →
      assemble (.writeNibble n) = none ∧ (∀ rs, assemble (.send rs n) = none) ∧
      assemble (.sendCommand n) = none ∧ assemble (.sendData n) = none)) ∧
  (∀ l c : Int,
    (0 ≤ l ∧ l ≤ 255 ∧ 0 ≤ c ∧ c ≤ 255 → ∃ lb cb : Byte,
      assemble (.setCursor l c) = some [0x14, lb, cb] ∧ lb.toNat = l ∧ cb.toNat = c) ∧
    (l < 0 ∨ 255 < l ∨ c < 0 ∨ 255 < c → assemble (.setCursor l c) = none))

/-- R77 and R129: `position` is the identity on 0..31, usable wherever a position operand is written, and rejected
elsewhere. -/
def Obligations.PositionIsIdentity : Prop :=
  (∀ n : Nat, n ≤ 31 → positionHelper n = some n) ∧ (∀ n : Nat, 31 < n → positionHelper n = none) ∧
  (∀ line column : Nat, line < 2 → column < 16 →
    positionHelper (line * 16 + column) = some (line * 16 + column)) ∧
  (∀ (n : Int) (text : List Char) (v : Int), 0 ≤ n ∧ n ≤ 31 →
    assemble (.showString text (.position n)) = assemble (.showString text (.number n)) ∧
    assemble (.showNumber v (.position n)) = assemble (.showNumber v (.number n))) ∧
  ∀ (n : Int) (text : List Char) (v : Int), n < 0 ∨ 31 < n →
    assemble (.showString text (.position n)) = none ∧ assemble (.showNumber v (.position n)) = none

/-! ### The step, the two views and the invariant -/

/-- A step of the operation view runs the instruction the offered packet decodes to, and takes the packet. -/
def Obligations.StepRunsDecodedInstruction : Prop :=
  ∀ (s : State) (bs : List Byte) (i : Instr) (rest : List HostInput),
    s.running = none → s.view = .operation → s.inputs = .packet bs :: rest → decode bs = .cmd i →
    step s = exec i (s.setInputs rest)

/-- A step of the event view accepts the command the offered packet decodes to; with an operation in progress a step
of either view is the next event of it, and a packet offered is held off (10_state.md, BUSY; 30_encoding.md section
4). -/
def Obligations.BusyBlockHoldsOffPackets : Prop :=
  (∀ (s : State) (bs : List Byte) (i : Instr) (rest : List HostInput),
    s.running = none → s.view = .event → s.inputs = .packet bs :: rest → decode bs = .cmd i →
    step s = .next ((s.setInputs rest).accept Params.spec i)) ∧
  ∀ (s : State), s.busy = true → (∀ n rest, s.inputs ≠ .reset n :: rest) →
    ∃ t, step s = .next t ∧ t = s.tick Params.spec ∧ t.inputs = s.inputs ∧ t.view = s.view

/-- The two views agree (00_scope.md section 5). The events of the operation happen one a tick, in trace order; BUSY
holds until the last of them and no longer; and the state then is the one the operation-atomic view answers. That an
operation of no events is never seen busy is the model's reading (log entry 8). -/
def Obligations.EventViewRefinesOperationView : Prop :=
  ∀ (i : Instr) (s : State), i.wf = true → s.running = none →
    ∃ t evs, exec i s = .next t ∧ t.trace = s.trace ++ evs ∧
      (s.accept Params.spec i).ticks Params.spec evs.length = t ∧ t.busy = false ∧
      ∀ k < evs.length,
        ((s.accept Params.spec i).ticks Params.spec k).busy = true ∧
        ((s.accept Params.spec i).ticks Params.spec k).trace = s.trace ++ evs.take k

/-- The sequencer position (10_state.md section 3): while an operation runs it holds the opcode, the number of events
emitted so far, and at least one and at most seven active rules. -/
def Obligations.SequencerPosition : Prop :=
  ∀ (i : Instr) (s : State) (k : Nat) (o : Operation), i.wf = true → s.running = none →
    ((s.accept Params.spec i).ticks Params.spec k).running = some o →
    o.opc = i.op.code ∧ o.emitted = k ∧ 1 ≤ o.frames.length ∧ o.frames.length ≤ 7

/-- "No operation sets UNSET back to 1; only reset does" (10_state.md section 2), of every step of either view. When
a counted reset is due and that it is consumed is the model's choice (log entry 4). -/
def Obligations.OnlyResetUnsetsAddress : Prop :=
  ∀ s t : State, step s = .next t → s.busAddr ≠ none → t.busAddr = none →
    ∃ n rest, s.inputs = .reset n :: rest ∧ (s.busy = false ∨ n = 0) ∧ t.inputs = rest

/-- Every step keeps the invariant: R30 between operations, and a consistent sequencer during one. -/
def Obligations.StepKeepsInvariant : Prop :=
  ∀ s t : State, s.Inv = true → step s = .next t → t.Inv = true

/-- The invariant holds after reset. -/
def Obligations.ResetMeetsInvariant : Prop := State.reset.Inv = true

/-- R30, of every state that meets the invariant: between operations PHASE is Unconnected or Ready, and Unconnected
exactly while BUSADDR is unset. -/
def Obligations.SessionRegistersBetweenOperations : Prop :=
  ∀ s : State, s.Inv = true → s.busy = false →
    (s.phase = .unconnected ∨ s.phase = .ready) ∧ (s.phase = .unconnected ↔ s.busAddr = none)
end

