-- ==== Sys2Proof/Laws/State.lean ====
section
/-! SUPPORT. One lemma per field per update of `State`, true by definition, so that no later proof unfolds an update;
and what each update does to the trace read in order. -/

namespace Sys2Proof.Machine.State

variable (s : State)

/-! `emit` -/

@[simp] theorem emit_busAddr (e : Event) : (s.emit e).busAddr = s.busAddr := rfl
@[simp] theorem emit_bl (e : Event) : (s.emit e).bl = s.bl := rfl
@[simp] theorem emit_phase (e : Event) : (s.emit e).phase = s.phase := rfl
@[simp] theorem emit_running (e : Event) : (s.emit e).running = s.running := rfl
@[simp] theorem emit_log (e : Event) : (s.emit e).log = e :: s.log := rfl
@[simp] theorem emit_inputs (e : Event) : (s.emit e).inputs = s.inputs := rfl
@[simp] theorem emit_answers (e : Event) : (s.emit e).answers = s.answers := rfl
@[simp] theorem emit_view (e : Event) : (s.emit e).view = s.view := rfl

/-! `discardAnswer` -/

@[simp] theorem discardAnswer_busAddr : s.discardAnswer.busAddr = s.busAddr := rfl
@[simp] theorem discardAnswer_bl : s.discardAnswer.bl = s.bl := rfl
@[simp] theorem discardAnswer_phase : s.discardAnswer.phase = s.phase := rfl
@[simp] theorem discardAnswer_running : s.discardAnswer.running = s.running := rfl
@[simp] theorem discardAnswer_log : s.discardAnswer.log = s.log := rfl
@[simp] theorem discardAnswer_inputs : s.discardAnswer.inputs = s.inputs := rfl
@[simp] theorem discardAnswer_answers : s.discardAnswer.answers = s.answers.tail := rfl
@[simp] theorem discardAnswer_view : s.discardAnswer.view = s.view := rfl

/-! `busWrite` -/

@[simp] theorem busWrite_busAddr (a : BusAddress) (v : Byte) : (s.busWrite a v).busAddr = s.busAddr := rfl
@[simp] theorem busWrite_bl (a : BusAddress) (v : Byte) : (s.busWrite a v).bl = s.bl := rfl
@[simp] theorem busWrite_phase (a : BusAddress) (v : Byte) : (s.busWrite a v).phase = s.phase := rfl
@[simp] theorem busWrite_running (a : BusAddress) (v : Byte) : (s.busWrite a v).running = s.running := rfl
@[simp] theorem busWrite_log (a : BusAddress) (v : Byte) : (s.busWrite a v).log = .w a v :: s.log := rfl
@[simp] theorem busWrite_inputs (a : BusAddress) (v : Byte) : (s.busWrite a v).inputs = s.inputs := rfl
@[simp] theorem busWrite_answers (a : BusAddress) (v : Byte) : (s.busWrite a v).answers = s.answers.tail := rfl
@[simp] theorem busWrite_view (a : BusAddress) (v : Byte) : (s.busWrite a v).view = s.view := rfl

/-! `waitUs` -/

@[simp] theorem waitUs_busAddr (n : Nat) : (s.waitUs n).busAddr = s.busAddr := rfl
@[simp] theorem waitUs_bl (n : Nat) : (s.waitUs n).bl = s.bl := rfl
@[simp] theorem waitUs_phase (n : Nat) : (s.waitUs n).phase = s.phase := rfl
@[simp] theorem waitUs_running (n : Nat) : (s.waitUs n).running = s.running := rfl
@[simp] theorem waitUs_log (n : Nat) : (s.waitUs n).log = .dus n :: s.log := rfl
@[simp] theorem waitUs_inputs (n : Nat) : (s.waitUs n).inputs = s.inputs := rfl
@[simp] theorem waitUs_answers (n : Nat) : (s.waitUs n).answers = s.answers := rfl
@[simp] theorem waitUs_view (n : Nat) : (s.waitUs n).view = s.view := rfl

/-! `waitMs` -/

@[simp] theorem waitMs_busAddr (n : Nat) : (s.waitMs n).busAddr = s.busAddr := rfl
@[simp] theorem waitMs_bl (n : Nat) : (s.waitMs n).bl = s.bl := rfl
@[simp] theorem waitMs_phase (n : Nat) : (s.waitMs n).phase = s.phase := rfl
@[simp] theorem waitMs_running (n : Nat) : (s.waitMs n).running = s.running := rfl
@[simp] theorem waitMs_log (n : Nat) : (s.waitMs n).log = .dms n :: s.log := rfl
@[simp] theorem waitMs_inputs (n : Nat) : (s.waitMs n).inputs = s.inputs := rfl
@[simp] theorem waitMs_answers (n : Nat) : (s.waitMs n).answers = s.answers := rfl
@[simp] theorem waitMs_view (n : Nat) : (s.waitMs n).view = s.view := rfl

/-! `setBusAddr` -/

@[simp] theorem setBusAddr_busAddr (a : BusAddress) : (s.setBusAddr a).busAddr = some a := rfl
@[simp] theorem setBusAddr_bl (a : BusAddress) : (s.setBusAddr a).bl = s.bl := rfl
@[simp] theorem setBusAddr_phase (a : BusAddress) : (s.setBusAddr a).phase = s.phase := rfl
@[simp] theorem setBusAddr_running (a : BusAddress) : (s.setBusAddr a).running = s.running := rfl
@[simp] theorem setBusAddr_log (a : BusAddress) : (s.setBusAddr a).log = s.log := rfl
@[simp] theorem setBusAddr_inputs (a : BusAddress) : (s.setBusAddr a).inputs = s.inputs := rfl
@[simp] theorem setBusAddr_answers (a : BusAddress) : (s.setBusAddr a).answers = s.answers := rfl
@[simp] theorem setBusAddr_view (a : BusAddress) : (s.setBusAddr a).view = s.view := rfl

/-! `setBl` -/

@[simp] theorem setBl_busAddr (b : Backlight) : (s.setBl b).busAddr = s.busAddr := rfl
@[simp] theorem setBl_bl (b : Backlight) : (s.setBl b).bl = b := rfl
@[simp] theorem setBl_phase (b : Backlight) : (s.setBl b).phase = s.phase := rfl
@[simp] theorem setBl_running (b : Backlight) : (s.setBl b).running = s.running := rfl
@[simp] theorem setBl_log (b : Backlight) : (s.setBl b).log = s.log := rfl
@[simp] theorem setBl_inputs (b : Backlight) : (s.setBl b).inputs = s.inputs := rfl
@[simp] theorem setBl_answers (b : Backlight) : (s.setBl b).answers = s.answers := rfl
@[simp] theorem setBl_view (b : Backlight) : (s.setBl b).view = s.view := rfl

/-! `setPhase` -/

@[simp] theorem setPhase_busAddr (ph : Phase) : (s.setPhase ph).busAddr = s.busAddr := rfl
@[simp] theorem setPhase_bl (ph : Phase) : (s.setPhase ph).bl = s.bl := rfl
@[simp] theorem setPhase_phase (ph : Phase) : (s.setPhase ph).phase = ph := rfl
@[simp] theorem setPhase_running (ph : Phase) : (s.setPhase ph).running = s.running := rfl
@[simp] theorem setPhase_log (ph : Phase) : (s.setPhase ph).log = s.log := rfl
@[simp] theorem setPhase_inputs (ph : Phase) : (s.setPhase ph).inputs = s.inputs := rfl
@[simp] theorem setPhase_answers (ph : Phase) : (s.setPhase ph).answers = s.answers := rfl
@[simp] theorem setPhase_view (ph : Phase) : (s.setPhase ph).view = s.view := rfl

/-! `setRunning` -/

@[simp] theorem setRunning_busAddr (o : Option Operation) : (s.setRunning o).busAddr = s.busAddr := rfl
@[simp] theorem setRunning_bl (o : Option Operation) : (s.setRunning o).bl = s.bl := rfl
@[simp] theorem setRunning_phase (o : Option Operation) : (s.setRunning o).phase = s.phase := rfl
@[simp] theorem setRunning_running (o : Option Operation) : (s.setRunning o).running = o := rfl
@[simp] theorem setRunning_log (o : Option Operation) : (s.setRunning o).log = s.log := rfl
@[simp] theorem setRunning_inputs (o : Option Operation) : (s.setRunning o).inputs = s.inputs := rfl
@[simp] theorem setRunning_answers (o : Option Operation) : (s.setRunning o).answers = s.answers := rfl
@[simp] theorem setRunning_view (o : Option Operation) : (s.setRunning o).view = s.view := rfl

/-! `setInputs` -/

@[simp] theorem setInputs_busAddr (ins : List HostInput) : (s.setInputs ins).busAddr = s.busAddr := rfl
@[simp] theorem setInputs_bl (ins : List HostInput) : (s.setInputs ins).bl = s.bl := rfl
@[simp] theorem setInputs_phase (ins : List HostInput) : (s.setInputs ins).phase = s.phase := rfl
@[simp] theorem setInputs_running (ins : List HostInput) : (s.setInputs ins).running = s.running := rfl
@[simp] theorem setInputs_log (ins : List HostInput) : (s.setInputs ins).log = s.log := rfl
@[simp] theorem setInputs_inputs (ins : List HostInput) : (s.setInputs ins).inputs = ins := rfl
@[simp] theorem setInputs_answers (ins : List HostInput) : (s.setInputs ins).answers = s.answers := rfl
@[simp] theorem setInputs_view (ins : List HostInput) : (s.setInputs ins).view = s.view := rfl

/-! `extend` -/

@[simp] theorem extend_busAddr (evs : List Event) : (s.extend evs).busAddr = s.busAddr := rfl
@[simp] theorem extend_bl (evs : List Event) : (s.extend evs).bl = s.bl := rfl
@[simp] theorem extend_phase (evs : List Event) : (s.extend evs).phase = s.phase := rfl
@[simp] theorem extend_running (evs : List Event) : (s.extend evs).running = s.running := rfl
@[simp] theorem extend_log (evs : List Event) : (s.extend evs).log = evs.reverse ++ s.log := rfl
@[simp] theorem extend_inputs (evs : List Event) : (s.extend evs).inputs = s.inputs := rfl
@[simp] theorem extend_answers (evs : List Event) : (s.extend evs).answers = s.answers.drop (busWrites evs).length := rfl
@[simp] theorem extend_view (evs : List Event) : (s.extend evs).view = s.view := rfl

/-! `resetBlock` -/

@[simp] theorem resetBlock_busAddr : s.resetBlock.busAddr = none := rfl
@[simp] theorem resetBlock_bl : s.resetBlock.bl = .on := rfl
@[simp] theorem resetBlock_phase : s.resetBlock.phase = .unconnected := rfl
@[simp] theorem resetBlock_running : s.resetBlock.running = none := rfl
@[simp] theorem resetBlock_log : s.resetBlock.log = s.log := rfl
@[simp] theorem resetBlock_inputs : s.resetBlock.inputs = s.inputs := rfl
@[simp] theorem resetBlock_answers : s.resetBlock.answers = s.answers := rfl
@[simp] theorem resetBlock_view : s.resetBlock.view = s.view := rfl

/-! `offer` -/

@[simp] theorem offer_busAddr (bytes : List Byte) : (s.offer bytes).busAddr = s.busAddr := rfl
@[simp] theorem offer_bl (bytes : List Byte) : (s.offer bytes).bl = s.bl := rfl
@[simp] theorem offer_phase (bytes : List Byte) : (s.offer bytes).phase = s.phase := rfl
@[simp] theorem offer_running (bytes : List Byte) : (s.offer bytes).running = none := rfl
@[simp] theorem offer_log (bytes : List Byte) : (s.offer bytes).log = s.log := rfl
@[simp] theorem offer_inputs (bytes : List Byte) : (s.offer bytes).inputs = .packet bytes :: s.inputs := rfl
@[simp] theorem offer_answers (bytes : List Byte) : (s.offer bytes).answers = s.answers := rfl
@[simp] theorem offer_view (bytes : List Byte) : (s.offer bytes).view = .operation := rfl

/-! The trace in order -/

@[simp] theorem emit_trace (e : Event) : (s.emit e).trace = s.trace ++ [e] := by simp [trace]

@[simp] theorem discardAnswer_trace : s.discardAnswer.trace = s.trace := rfl

@[simp] theorem busWrite_trace (a : BusAddress) (v : Byte) : (s.busWrite a v).trace = s.trace ++ [.w a v] := by
  simp [trace]

@[simp] theorem waitUs_trace (n : Nat) : (s.waitUs n).trace = s.trace ++ [.dus n] := by simp [trace]

@[simp] theorem waitMs_trace (n : Nat) : (s.waitMs n).trace = s.trace ++ [.dms n] := by simp [trace]

@[simp] theorem setBusAddr_trace (a : BusAddress) : (s.setBusAddr a).trace = s.trace := rfl

@[simp] theorem setBl_trace (b : Backlight) : (s.setBl b).trace = s.trace := rfl

@[simp] theorem setPhase_trace (ph : Phase) : (s.setPhase ph).trace = s.trace := rfl

@[simp] theorem setRunning_trace (o : Option Operation) : (s.setRunning o).trace = s.trace := rfl

@[simp] theorem setInputs_trace (ins : List HostInput) : (s.setInputs ins).trace = s.trace := rfl

@[simp] theorem extend_trace (evs : List Event) : (s.extend evs).trace = s.trace ++ evs := by simp [trace]

@[simp] theorem resetBlock_trace : s.resetBlock.trace = s.trace := rfl

@[simp] theorem offer_trace (bytes : List Byte) : (s.offer bytes).trace = s.trace := rfl

end Sys2Proof.Machine.State
end

