-- ==== Sys2Proof/Laws/Ops.lean ====
section
/-! SUPPORT. What each shared operation does, once: the state it answers is the old one with the events of its rule
appended (Machine/Trace.lean gives them in closed form), and with the registers the rule writes. -/

namespace Sys2Proof.Machine

open Params

/-! ### Appending events -/

@[simp] theorem busWrites_nil : busWrites [] = [] := rfl

@[simp] theorem busWrites_append (xs ys : List Event) : busWrites (xs ++ ys) = busWrites xs ++ busWrites ys := by
  simp [busWrites]

@[simp] theorem busWrites_w (a : BusAddress) (v : Byte) (evs : List Event) :
    busWrites (.w a v :: evs) = (a, v) :: busWrites evs := rfl

@[simp] theorem busWrites_dus (n : Nat) (evs : List Event) : busWrites (.dus n :: evs) = busWrites evs := rfl

@[simp] theorem busWrites_dms (n : Nat) (evs : List Event) : busWrites (.dms n :: evs) = busWrites evs := rfl

@[simp] theorem extend_nil (s : State) : s.extend [] = s := rfl

theorem extend_extend (s : State) (xs ys : List Event) : (s.extend xs).extend ys = s.extend (xs ++ ys) := by
  ext1 <;> simp [List.drop_drop]

theorem busWrite_eq_extend (s : State) (a : BusAddress) (v : Byte) : s.busWrite a v = s.extend [.w a v] := by
  ext1 <;> simp

theorem waitUs_eq_extend (s : State) (n : Nat) : s.waitUs n = s.extend [.dus n] := rfl

theorem waitMs_eq_extend (s : State) (n : Nat) : s.waitMs n = s.extend [.dms n] := rfl

theorem extend_setRunning (s : State) (evs : List Event) (o : Option Operation) :
    (s.extend evs).setRunning o = (s.setRunning o).extend evs := rfl

theorem extend_setPhase (s : State) (evs : List Event) (ph : Phase) :
    (s.extend evs).setPhase ph = (s.setPhase ph).extend evs := rfl

theorem extend_setBl (s : State) (evs : List Event) (b : Backlight) :
    (s.extend evs).setBl b = (s.setBl b).extend evs := rfl

/-! ### Operand assembly -/

theorem framedNibble_hi (p : Byte) (bl : Backlight) (rs : RegSel) :
    framedNibble (hiNibble p.toNat) bl rs =
      (p &&& 0xF0) ||| (if bl = .on then 0x08 else 0x00) ||| (if rs = .data then 0x01 else 0x00) := by
  have h : hiNibble p.toNat = p &&& 0xF0 := by
    apply BitVec.eq_of_toNat_eq
    have := p.isLt
    have h2 : p.toNat &&& nibMask ≤ p.toNat := Nat.and_le_left
    simp [hiNibble, nibMask] at *
  cases bl <;> cases rs <;> simp [framedNibble, h, blBits, rsBits, blOnBits, blOffBits]

/-- Only bits 7:0 of a payload take part in the high nibble (rule R63). -/
theorem hiNibble_mod (p : Nat) : hiNibble (p % 256) = hiNibble p := by
  apply BitVec.eq_of_getLsbD_eq
  intro i hi
  simp only [hiNibble, nibMask, BitVec.getLsbD_ofNat, hi, decide_true, Bool.true_and, Nat.testBit_and]
  rw [show (256 : Nat) = 2 ^ 8 from rfl, Nat.testBit_mod_two_pow]
  simp [hi]

/-- Only bits 7:0 of a payload take part in the low nibble (rule R63). -/
theorem loNibble_mod (p : Nat) : loNibble (p % 256) = loNibble p := by
  apply BitVec.eq_of_getLsbD_eq
  intro i hi
  simp only [loNibble, nibMask, BitVec.getLsbD_ofNat, hi, decide_true, Bool.true_and, Nat.testBit_and,
    Nat.testBit_shiftLeft]
  rw [show (256 : Nat) = 2 ^ 8 from rfl, Nat.testBit_mod_two_pow]
  have : i - 4 < 8 := by omega
  simp [this]

theorem loNibble_toNat (p : Byte) : loNibble p.toNat = p <<< 4 := by
  revert p
  decide

theorem framedNibble_lo (p : Byte) (bl : Backlight) (rs : RegSel) :
    framedNibble (loNibble p.toNat) bl rs =
      (p <<< 4) ||| (if bl = .on then 0x08 else 0x00) ||| (if rs = .data then 0x01 else 0x00) := by
  cases bl <;> cases rs <;> simp [framedNibble, loNibble_toNat, blBits, rsBits, blOnBits, blOffBits]

/-! ### The nibble transport and the framer -/

theorem wrnib_unset {s : State} (h : s.busAddr = none) (v : Byte) : wrnib v s = s := by simp [wrnib, h]

theorem wrnib_set {s : State} {a : BusAddress} (h : s.busAddr = some a) (v : Byte) :
    wrnib v s = s.extend (nibbleEvents a v) := by
  simp only [wrnib, h, busWrite_eq_extend, waitUs_eq_extend, extend_extend]
  rfl

/-- WRNIB in one line: the events of rule R90 under the guard of rule R91. -/
theorem wrnib_eq (v : Byte) (s : State) :
    wrnib v s = s.extend (match s.busAddr with | none => [] | some a => nibbleEvents a v) := by
  cases h : s.busAddr with
  | none => simp [wrnib_unset h]
  | some a => simp [wrnib_set h]

theorem send_byte (rs : RegSel) (p : Byte) (s : State) :
    send rs p.toNat s = s.extend (guardedFrames s.busAddr s.bl [(rs, p)]) := by
  cases h : s.busAddr with
  | none => simp [send, wrnib_unset h, guardedFrames]
  | some a =>
    simp [send, wrnib_set h, wrnib_set (s := s.extend _) (a := a) (by simp [h]), extend_extend, guardedFrames,
      framesEvents, frameEvents, framedNibble_hi, framedNibble_lo]

/-- SEND takes bits 7:0 of its payload (rules R63 and R100). -/
theorem send_mod (rs : RegSel) (p : Nat) (s : State) : send rs (p % 256) s = send rs p s := by
  simp only [send, hiNibble_mod, loNibble_mod]

/-- SEND in one line, for a payload of any width (rule R100). -/
theorem send_eq (rs : RegSel) (p : Nat) (s : State) :
    send rs p s = s.extend (guardedFrames s.busAddr s.bl [(rs, BitVec.ofNat 8 p)]) := by
  rw [← send_byte, BitVec.toNat_ofNat, send_mod]

theorem sendCmd_eq (p : Nat) (s : State) :
    sendCmd p s = s.extend (guardedFrames s.busAddr s.bl [(.command, BitVec.ofNat 8 p)]) := send_eq _ _ _

/-- SENDCMD of a latched payload is SENDCMD of the payload (rules R25 and R63). -/
theorem sendCmd_latchByte (p : Nat) (s : State) : sendCmd (latchByte p).toNat s = sendCmd p s := by
  rw [sendCmd, latchByte, BitVec.toNat_ofNat, send_mod]
  rfl

theorem latchByte_toNat {n : Nat} (h : n < 256) : (latchByte n).toNat = n := by
  simp [latchByte, Nat.mod_eq_of_lt h]

theorem sendDat_eq (p : Nat) (s : State) :
    sendDat p s = s.extend (guardedFrames s.busAddr s.bl [(.data, BitVec.ofNat 8 p)]) := send_eq _ _ _

@[simp] theorem guardedFrames_nil (a : Option BusAddress) (bl : Backlight) : guardedFrames a bl [] = [] := by
  cases a <;> rfl

theorem guardedFrames_append (a : Option BusAddress) (bl : Backlight) (xs ys : List LogicalWrite) :
    guardedFrames a bl (xs ++ ys) = guardedFrames a bl xs ++ guardedFrames a bl ys := by
  cases a <;> simp [guardedFrames, framesEvents]

/-! ### The display operations -/

theorem setCur_eq (line column : Nat) (s : State) :
    setCur line column s =
      s.extend (guardedFrames s.busAddr s.bl [(.command, BitVec.ofNat 8 (cursorCommand line column))]) :=
  sendCmd_eq _ _

theorem beyondDisplay_iff (p : Nat) : beyondDisplay p = true ↔ 31 < p := by
  simp only [beyondDisplay, decide_eq_true_eq]
  unfold cells
  omega

/-- Inside the display the line test fires at index 16 alone, and not for the first character (rule R123 (d)). -/
theorem crossesLine_iff {i idx : Nat} (h : idx ≤ 31) (hi : i ≤ idx) :
    crossesLine i idx = true ↔ idx = 16 ∧ i ≠ 0 := by
  simp only [crossesLine, Bool.and_eq_true, decide_eq_true_eq]
  unfold columnOf cols
  omega

theorem lineReset_eq {i idx : Nat} (h : idx ≤ 31) (hi : i ≤ idx) (s : State) :
    lineReset i idx s =
      s.extend (guardedFrames s.busAddr s.bl (if idx = 16 ∧ i ≠ 0 then [(.command, 0xC0)] else [])) := by
  unfold lineReset
  by_cases hc : idx = 16 ∧ i ≠ 0
  · rw [if_pos ((crossesLine_iff h hi).2 hc), if_pos hc, setCur_eq]
    simp [hc.1, cursorCommand, lineOf, cols, lineBase1]
  · rw [if_neg (fun hx => hc ((crossesLine_iff h hi).1 hx)), if_neg hc]
    simp

/-- The frames of the character loop from character `i` on, in the order of the loop (rule R123). -/
def loopFrames (pos : Nat) : (i : Nat) → List Byte → List LogicalWrite
  | _, [] => []
  | i, ch :: rest =>
    if 31 < pos + i then []
    else (if pos + i = 16 ∧ i ≠ 0 then [(.command, 0xC0)] else []) ++ (.data, ch) :: loopFrames pos (i + 1) rest

/-- The character loop in one line, with the order of tests the spec takes. -/
theorem showLoop_eq {c : Config} (hc : c.stopBeforeWrap = true) (pos : Nat) (text : List Byte) (i : Nat)
    (s : State) :
    showLoop c pos i text s = s.extend (guardedFrames s.busAddr s.bl (loopFrames pos i text)) := by
  induction text generalizing i s with
  | nil => simp [showLoop, loopFrames]
  | cons ch rest ih =>
    by_cases h : 31 < pos + i
    · simp [showLoop, hc, (beyondDisplay_iff _).2 h, loopFrames, h]
    · have hb : beyondDisplay (pos + i) = false := by simpa using mt (beyondDisplay_iff (pos + i)).1 h
      simp only [showLoop, hc, hb, if_true, Bool.false_eq_true, if_false, ih, loopFrames, h]
      rw [lineReset_eq (by omega) (by omega), sendDat_eq]
      simp [extend_extend, ← guardedFrames_append]

/-- The loop's frames, indexed by the characters that fit (rule R123 (f)). -/
theorem loopFrames_eq (pos : Nat) (text : List Byte) (i : Nat) :
    loopFrames pos i text =
      (List.range (min text.length (32 - (pos + i)))).flatMap fun j =>
        (if pos + (i + j) = 16 ∧ i + j ≠ 0 then [(.command, 0xC0)] else []) ++ [(.data, text.getD j 0)] := by
  induction text generalizing i with
  | nil => simp [loopFrames]
  | cons ch rest ih =>
    unfold loopFrames
    by_cases h : 31 < pos + i
    · have : 32 - (pos + i) = 0 := by omega
      simp [h, this]
    · have hm : min (ch :: rest).length (32 - (pos + i)) = min rest.length (32 - (pos + (i + 1))) + 1 := by
        simp only [List.length_cons]
        omega
      rw [hm, List.range_succ_eq_map, List.flatMap_cons, List.flatMap_map, ih]
      simp [h, Nat.add_assoc, Nat.add_comm 1]

theorem cursorCommand_position {p : Nat} (h : p ≤ 31) :
    BitVec.ofNat 8 (cursorCommand (lineOf p) (columnOf p)) = positionCommand p := by
  have table : ∀ q < 32, BitVec.ofNat 8 (cursorCommand (lineOf q) (columnOf q)) = positionCommand q := by decide
  exact table p (by omega)

/-- SHOWSTR in one line, with the order of tests the spec takes (rule R123). -/
theorem showStr_eq {c : Config} (hc : c.stopBeforeWrap = true) (text : List Byte) (pos : Nat) (s : State) :
    showStr c text pos s = s.extend (guardedFrames s.busAddr s.bl (textFrames text pos)) := by
  unfold showStr textFrames
  by_cases h : 31 < pos
  · simp [(beyondDisplay_iff _).2 h, h]
  · have hb : beyondDisplay pos = false := by simpa using mt (beyondDisplay_iff pos).1 h
    simp only [hb, Bool.false_eq_true, if_false, h, setCur_eq, showLoop_eq hc, State.extend_busAddr,
      State.extend_bl, extend_extend, ← guardedFrames_append, cursorCommand_position (p := pos) (by omega),
      loopFrames_eq pos, shownCount]
    simp

theorem clearAll_eq {c : Config} (hc : c.stopBeforeWrap = true) (s : State) :
    clearAll c s =
      s.extend (guardedFrames s.busAddr s.bl (textFrames (List.replicate 32 c.charSpace) 0)) := showStr_eq hc _ _ _

theorem setBacklight_eq {c : Config} (hc : c.guardScope = .transportOnly) (b : Backlight) (s : State) :
    setBacklight c b s = (s.setBl b).extend (guardedFrames s.busAddr b [(.command, 0x00)]) := by
  simp [setBacklight, hc, sendCmd_eq]

/-! ### CONNECT -/

theorem initBits_eq (c : Config) (bl : Backlight) : initBits c bl = initBacklight c bl := by
  cases bl <;> cases h : c.initNibbleOrBacklight <;> simp [initBits, initBacklight, h, blBits, blOnBits, blOffBits]

theorem blBits_eq (bl : Backlight) : blBits bl = if bl = .on then 0x08 else 0x00 := by cases bl <;> rfl

/-- The handshake in one line: BUSADDR and PHASE written, the events of the table of rule R111 appended. -/
theorem handshake_eq {c : Config} (hc : c.stopBeforeWrap = true) (a : BusAddress) (s : State) :
    handshake c a s = ((s.setBusAddr a).setPhase .ready).extend (connectEvents c a s.bl) := by
  simp only [handshake, forceRepeats, Nat.repeat, forceOnce, configure, wrnib_eq, sendCmd_eq, clearAll_eq hc,
    busWrite_eq_extend, waitUs_eq_extend, waitMs_eq_extend, extend_extend, extend_setPhase, State.extend_busAddr,
    State.extend_bl, State.setPhase_busAddr, State.setPhase_bl, State.setBusAddr_busAddr, State.setBusAddr_bl,
    guardedFrames, initBits_eq, blBits_eq]
  simp [connectEvents, connectPhases, phaseEvents, framesEvents, State.setPhase, tPwr, tForce, tCfg, nibForce8,
    nibSel4]

theorem addressNegative_iff (addr : Byte) : addressNegative addr = true ↔ addr.toInt < 0 := by
  simp [addressNegative]

end Sys2Proof.Machine
end

