-- ==== Sys2Proof/Laws/Moves.lean ====
section
/-! SUPPORT. What one move of the sequencer leaves: consistent active rules with fewer moves to go. So the moves
between two events end well before `moveBound`. -/

namespace Sys2Proof.Machine

open Params

/-! ### How many moves an active rule has left at most, with all the rules it will call -/

/-- SHOWSTR at the head of its loop: 44 moves for each index up to the one that stops it. -/
def showMoves (p i : Nat) : Nat := 44 * (33 - (p + i)) + 25

def ShowstrPos.moves (c : Config) (p : Nat) : ShowstrPos → Nat
  | .enter => 22 + showMoves p 0
  | .loop i => showMoves p i
  | .firstTest i _ => showMoves p i - 1
  | .secondTest i _ => if c.stopBeforeWrap then showMoves p i - 2 else showMoves p i - 23
  | .char i _ => showMoves p i - 24

/-- CONNECT before `PHASE <- ph`. -/
def enterMoves : Phase → Nat
  | .unconnected | .ready => 2
  | .powerSettle => 1835
  | .forceReset => 1831
  | .fourBitSelect => 1801
  | .functionSet => 1791
  | .displayControl => 1761
  | .entryModeSet => 1731
  | .cleared => 1701

def ConnectPos.moves : ConnectPos → Nat
  | .validate => 1837
  | .bind => 1836
  | .enter ph => enterMoves ph
  | .firstWait => 1834
  | .rawByte => 1833
  | .secondWait => 1832
  | .force rep => 1810 + (2 - rep) * 10
  | .forceWait rep => 1802 + (2 - rep) * 10
  | .select => 1800
  | .selectWait => 1792
  | .config ph => enterMoves ph - 1
  | .configWait ph => enterMoves ph.following + 1
  | .clearCall => 1700
  | .leave => 1

def WrnibPos.moves : WrnibPos → Nat
  | .guard => 7 | .low => 6 | .high => 5 | .hold => 4 | .lowAgain => 3 | .settle => 2 | .leave => 1

def BodyPos.moves (first second : Nat) : BodyPos → Nat
  | .first => first | .second => second | .leave => 1

def Frame.moves (c : Config) : Frame → Nat
  | .wrnib _ pos => pos.moves
  | .send _ _ pos => pos.moves 17 9
  | .sendcmd _ pos | .senddat _ pos => pos.moves 19 1
  | .setcur _ _ pos => pos.moves 21 1
  | .showstr p _ pos => pos.moves c p.toNat
  | .shownum _ _ pos | .clear pos => pos.moves 1600 1
  | .setbl _ pos => pos.moves 22 21
  | .connect _ pos => pos.moves

def movesLeft (c : Config) (fs : List Frame) : Nat := (fs.map (Frame.moves c)).sum

@[simp] theorem movesLeft_nil (c : Config) : movesLeft c [] = 0 := rfl

@[simp] theorem movesLeft_cons (c : Config) (f : Frame) (fs : List Frame) :
    movesLeft c (f :: fs) = f.moves c + movesLeft c fs := by
  simp [movesLeft]

@[simp] theorem movesLeft_append (c : Config) (xs ys : List Frame) :
    movesLeft c (xs ++ ys) = movesLeft c xs + movesLeft c ys := by
  simp [movesLeft]

/-- The active rules a move leaves above `fs`. -/
def Move.frames : Move → List Frame → List Frame
  | .emit _ f, fs | .bindAddr _ f, fs | .writeBl _ f, fs | .writePhase _ f, fs | .goto f, fs => f :: fs
  | .call g f, fs => g :: f :: fs
  | .ret, fs => fs

theorem move_frames_append (m : Move) (fs : List Frame) : m.frames fs = m.frames [] ++ fs := by
  cases m <;> rfl

/-! ### The longest number -/

theorem digitsUpTo_length (fuel k : Nat) (n : Nat) (h : n < 10 ^ (k + 1)) :
    (digitsUpTo fuel n).length ≤ k + 1 := by
  induction k generalizing fuel n with
  | zero =>
    cases fuel with
    | zero => simp [digitsUpTo]
    | succ f =>
      have : n < 10 := by simpa using h
      simp [digitsUpTo, this]
  | succ k ih =>
    cases fuel with
    | zero => simp [digitsUpTo]
    | succ f =>
      have := ih f (n / 10) (by rw [Nat.pow_succ] at h; omega)
      unfold digitsUpTo
      split <;> simp
      omega

theorem decimalString_fits (v : Word32) : (decimalString v.toInt).length ≤ 255 := by
  have hn : v.toInt.natAbs < 10 ^ (9 + 1) := by
    have := v.toInt_lt
    have := v.le_toInt
    norm_num at *
    omega
  have := digitsUpTo_length (v.toInt.natAbs + 1) 9 v.toInt.natAbs hn
  unfold decimalString digits
  split <;> simp
  all_goals omega

/-! ### One move -/

/-- The stop test leaves a rule in its place, or ends the rule. -/
theorem moveStop_cases (idx : Nat) (next : Frame) :
    (31 < idx ∧ moveStop idx next = .ret) ∨ (idx ≤ 31 ∧ moveStop idx next = .goto next) := by
  unfold moveStop
  by_cases h : 31 < idx
  · exact .inl ⟨h, if_pos ((beyondDisplay_iff idx).2 h)⟩
  · exact .inr ⟨by omega, if_neg (mt (beyondDisplay_iff idx).1 h)⟩

/-- The line test goes on, with a cursor re-set first or without. -/
theorem moveLineReset_cases (i idx : Nat) (next : Frame) :
    moveLineReset i idx next = .goto next ∨
      moveLineReset i idx next = .call (.setcur (latchByte (lineOf idx)) 0 .first) next := by
  unfold moveLineReset
  split
  · exact .inr rfl
  · exact .inl rfl

theorem showstr_move_ok (c : Config) (a : Option BusAddress) (bl : Backlight) (p : Byte) (text : List Byte)
    (pos : ShowstrPos) (hf : (Frame.showstr p text pos).fits c = true) :
    let fs := ((Frame.showstr p text pos).move c a bl).frames []
    framesConsistent c fs = true ∧ (∀ g ∈ fs.getLast?, g.rank = (Frame.showstr p text pos).rank) ∧
      movesLeft c fs < (Frame.showstr p text pos).moves c := by
  cases pos with
  | enter =>
    simp only [Frame.move, moveShowstr]
    by_cases hb : beyondDisplay p.toNat = true
    · simp [hb, framesConsistent, Move.frames, Frame.moves, ShowstrPos.moves]
    · have := mt (beyondDisplay_iff p.toNat).2 hb
      simp_all [framesConsistent, Move.frames, Frame.fits, Frame.rank, Frame.moves, BodyPos.moves, ShowstrPos.fits,
        ShowstrPos.moves, showMoves]
  | loop i =>
    simp only [Frame.move, moveShowstr]
    split <;>
      simp_all [framesConsistent, Move.frames, Frame.fits, Frame.rank, Frame.moves, ShowstrPos.fits,
        ShowstrPos.moves, showMoves]
  | firstTest i idx =>
    simp only [Frame.fits, ShowstrPos.fits, Bool.and_eq_true, decide_eq_true_eq] at hf
    obtain ⟨ht, hp, hi, rfl⟩ := hf
    simp only [Frame.move, moveShowstr]
    cases hc : c.stopBeforeWrap
    · obtain h | h := moveLineReset_cases i (p.toNat + i) (.showstr p text (.secondTest i (p.toNat + i))) <;>
        simp [h, hc, ht, hp, hi, framesConsistent, Move.frames, Frame.fits, Frame.rank, Frame.moves,
          BodyPos.moves, ShowstrPos.fits, ShowstrPos.moves, showMoves]
      omega
    · obtain ⟨h1, h⟩ | ⟨h1, h⟩ := moveStop_cases (p.toNat + i) (.showstr p text (.secondTest i (p.toNat + i))) <;>
        simp [h, hc, ht, hp, hi, h1, framesConsistent, Move.frames, Frame.fits, Frame.rank, Frame.moves,
          ShowstrPos.fits, ShowstrPos.moves, showMoves]
  | secondTest i idx =>
    simp only [Frame.fits, ShowstrPos.fits, Bool.and_eq_true, decide_eq_true_eq] at hf
    obtain ⟨ht, hp, hi, rfl, hs⟩ := hf
    simp only [Frame.move, moveShowstr]
    cases hc : c.stopBeforeWrap
    · obtain ⟨h1, h⟩ | ⟨h1, h⟩ := moveStop_cases (p.toNat + i) (.showstr p text (.char i (p.toNat + i))) <;>
        simp [h, hc, ht, hp, hi, h1, framesConsistent, Move.frames, Frame.fits, Frame.rank, Frame.moves,
          ShowstrPos.fits, ShowstrPos.moves, showMoves]
    · obtain h | h := moveLineReset_cases i (p.toNat + i) (.showstr p text (.char i (p.toNat + i))) <;>
        simp [h, hc, ht, hp, hi, hs hc, framesConsistent, Move.frames, Frame.fits, Frame.rank, Frame.moves,
          BodyPos.moves, ShowstrPos.fits, ShowstrPos.moves, showMoves]
      omega
  | char i idx =>
    simp only [Frame.fits, ShowstrPos.fits, Bool.and_eq_true, decide_eq_true_eq] at hf
    obtain ⟨ht, hp, hi, rfl, hs⟩ := hf
    simp_all [Frame.move, moveShowstr, framesConsistent, Move.frames, Frame.fits, Frame.rank, Frame.moves,
      BodyPos.moves, ShowstrPos.fits, ShowstrPos.moves, showMoves]
    omega

theorem connect_move_ok (c : Config) (a : Option BusAddress) (bl : Backlight) (addr : Byte) (pos : ConnectPos)
    (hf : (Frame.connect addr pos).fits c = true) :
    let fs := ((Frame.connect addr pos).move c a bl).frames []
    framesConsistent c fs = true ∧ (∀ g ∈ fs.getLast?, g.rank = (Frame.connect addr pos).rank) ∧
      movesLeft c fs < (Frame.connect addr pos).moves c := by
  cases pos with
  | validate =>
    simp only [Frame.move, moveConnect]
    split <;>
      simp [framesConsistent, Move.frames, Frame.fits, Frame.rank, Frame.moves, ConnectPos.fits, ConnectPos.moves]
  | enter ph =>
    cases ph <;>
      simp [Frame.move, moveConnect, ConnectPos.afterEnter, framesConsistent, Move.frames, Frame.fits, Frame.rank,
        Frame.moves, ConnectPos.fits, ConnectPos.moves, enterMoves]
  | rawByte =>
    cases a <;>
      simp [Frame.move, moveConnect, moveWrite, framesConsistent, Move.frames, Frame.fits, Frame.rank, Frame.moves,
        ConnectPos.fits, ConnectPos.moves]
  | forceWait rep =>
    simp only [Frame.fits, ConnectPos.fits, decide_eq_true_eq] at hf
    obtain rfl | rfl | rfl : rep = 0 ∨ rep = 1 ∨ rep = 2 := by omega
    all_goals
      simp [Frame.move, moveConnect, forceRepeats, framesConsistent, Move.frames, Frame.fits, Frame.rank,
        Frame.moves, ConnectPos.fits, ConnectPos.moves, enterMoves]
  | config ph =>
    have h1 : (configCommand c ph).toNat ≤ 447 := by
      have := (configCommand c ph).isLt
      omega
    simp only [Frame.fits, ConnectPos.fits, decide_eq_true_eq] at hf
    obtain rfl | rfl | rfl := hf <;>
      simp_all [Frame.move, moveConnect, framesConsistent, Move.frames, Frame.fits, Frame.rank, Frame.moves,
        BodyPos.moves, ConnectPos.fits, ConnectPos.moves, enterMoves, Phase.following]
  | bind | firstWait | secondWait | select | selectWait | configWait ph | clearCall | leave =>
    simp_all [Frame.move, moveConnect, framesConsistent, Move.frames, Frame.fits, Frame.rank, Frame.moves,
      BodyPos.moves, WrnibPos.moves, ConnectPos.fits, ConnectPos.moves, enterMoves]
  | force rep =>
    simp_all [Frame.move, moveConnect, framesConsistent, Move.frames, Frame.fits, Frame.rank, Frame.moves,
      WrnibPos.moves, ConnectPos.fits, ConnectPos.moves]
    omega

/-- What a move leaves in the innermost rule's place: consistent rules of that layer or below, with fewer moves. -/
theorem move_ok (c : Config) (a : Option BusAddress) (bl : Backlight) (f : Frame) (hf : f.fits c = true) :
    let fs := (f.move c a bl).frames []
    framesConsistent c fs = true ∧ (∀ g ∈ fs.getLast?, g.rank = f.rank) ∧ movesLeft c fs < f.moves c := by
  cases f with
  | wrnib v pos =>
    cases pos <;> cases a <;>
      simp [Frame.move, moveWrnib, moveWrite, framesConsistent, Move.frames, Frame.fits, Frame.rank, Frame.moves,
        WrnibPos.moves]
  | send rs p pos =>
    cases pos <;>
      simp_all [Frame.move, moveSend, framesConsistent, Move.frames, Frame.fits, Frame.rank, Frame.moves,
        BodyPos.moves, WrnibPos.moves]
  | sendcmd p pos | senddat p pos =>
    cases pos <;>
      simp_all [Frame.move, moveDelegate, framesConsistent, Move.frames, Frame.fits, Frame.rank, Frame.moves,
        BodyPos.moves]
  | setcur l col pos =>
    cases pos <;>
      simp_all [Frame.move, moveDelegate, framesConsistent, Move.frames, Frame.fits, Frame.rank, Frame.moves,
        BodyPos.moves]
  | shownum p v pos =>
    have := decimalString_fits v
    cases pos <;>
      simp_all [Frame.move, moveDelegate, framesConsistent, Move.frames, Frame.fits, Frame.rank, Frame.moves,
        BodyPos.moves, ShowstrPos.fits, ShowstrPos.moves, showMoves]
    omega
  | clear pos =>
    cases pos <;>
      simp [Frame.move, moveDelegate, framesConsistent, Move.frames, Frame.fits, Frame.rank, Frame.moves,
        BodyPos.moves, ShowstrPos.fits, ShowstrPos.moves, showMoves, blankText, cells]
  | setbl b pos =>
    cases pos <;> simp only [Frame.move, moveSetbl]
    · split <;> simp [framesConsistent, Move.frames, Frame.fits, Frame.rank, Frame.moves, BodyPos.moves]
    · simp [framesConsistent, Move.frames, Frame.fits, Frame.rank, Frame.moves, BodyPos.moves]
    · simp [framesConsistent, Move.frames, Frame.moves, BodyPos.moves]
  | showstr p text pos => exact showstr_move_ok c a bl p text pos hf
  | connect addr pos => exact connect_move_ok c a bl addr pos hf

/-! ### A stack of active rules -/

theorem framesConsistent_iff (c : Config) (fs : List Frame) :
    framesConsistent c fs = true ↔ fs.Pairwise (fun f g => f.rank < g.rank) ∧ ∀ f ∈ fs, f.fits c = true := by
  simp [framesConsistent]

theorem rank_le_getLast {fs : List Frame} (h : fs.Pairwise (fun f g => f.rank < g.rank)) {r : Nat}
    (hl : ∀ g ∈ fs.getLast?, g.rank = r) : ∀ g ∈ fs, g.rank ≤ r := by
  induction fs with
  | nil => simp
  | cons f fs ih =>
    intro g hg
    cases fs with
    | nil => simp_all
    | cons f2 fs =>
      rw [List.pairwise_cons] at h
      have ih' := ih h.2 (by simpa using hl)
      rcases List.mem_cons.1 hg with rfl | hg
      · have := h.1 f2 (by simp); have := ih' f2 (by simp); omega
      · exact ih' g hg

/-- A move keeps the active rules consistent and leaves fewer moves. -/
theorem move_consistent {c : Config} {f : Frame} {fs : List Frame} (h : framesConsistent c (f :: fs) = true)
    (a : Option BusAddress) (bl : Backlight) :
    framesConsistent c ((f.move c a bl).frames fs) = true ∧
      movesLeft c ((f.move c a bl).frames fs) < movesLeft c (f :: fs) := by
  rw [framesConsistent_iff, List.pairwise_cons] at h
  obtain ⟨⟨hr, hp⟩, hf⟩ := h
  obtain ⟨ho, hl, hm⟩ := move_ok c a bl f (hf f (by simp))
  rw [framesConsistent_iff] at ho
  rw [move_frames_append, framesConsistent_iff]
  refine ⟨⟨List.pairwise_append.2 ⟨ho.1, hp, fun g hg g' hg' => ?_⟩, fun g hg => ?_⟩, ?_⟩
  · have := rank_le_getLast ho.1 hl g hg
    have := hr g' hg'
    omega
  · rcases List.mem_append.1 hg with hg | hg
    · exact ho.2 g hg
    · exact hf g (by simp [hg])
  · simpa using hm

/-- The most moves a rule of a layer has left. -/
def rankMoves : Nat → Nat
  | 0 => 7 | 1 => 17 | 2 => 19 | 3 => 21 | 4 => 1499 | 5 => 1600 | 6 => 1837 | _ => 0

theorem moves_le_rankMoves (c : Config) (f : Frame) (h : f.fits c = true) : f.moves c ≤ rankMoves f.rank := by
  cases f with
  | wrnib v pos => cases pos <;> simp [Frame.moves, WrnibPos.moves, Frame.rank, rankMoves]
  | send _ _ pos | sendcmd _ pos | senddat _ pos | setcur _ _ pos | shownum _ _ pos | clear pos | setbl _ pos =>
    cases pos <;> simp [Frame.moves, BodyPos.moves, Frame.rank, rankMoves]
  | showstr p text pos =>
    cases pos <;> simp [Frame.moves, ShowstrPos.moves, Frame.rank, rankMoves, showMoves] <;> (try split) <;> omega
  | connect addr pos =>
    cases pos with
    | enter ph | config ph => cases ph <;> simp [Frame.moves, ConnectPos.moves, Frame.rank, rankMoves, enterMoves]
    | configWait ph => cases ph <;> simp [Frame.moves, ConnectPos.moves, Frame.rank, rankMoves, enterMoves, Phase.following]
    | force rep | forceWait rep => simp [Frame.moves, ConnectPos.moves, Frame.rank, rankMoves]; omega
    | _ => simp [Frame.moves, ConnectPos.moves, Frame.rank, rankMoves]

theorem rank_le_six (f : Frame) : f.rank ≤ 6 := by cases f <;> simp [Frame.rank]

theorem movesLeft_le {c : Config} (fs : List Frame) (k : Nat) (hp : fs.Pairwise (fun f g => f.rank < g.rank))
    (hf : ∀ f ∈ fs, f.fits c = true) (hk : ∀ f ∈ fs, k ≤ f.rank) :
    movesLeft c fs ≤ ((List.range 7).map fun r => if k ≤ r then rankMoves r else 0).sum := by
  induction fs generalizing k with
  | nil => simp [movesLeft]
  | cons f fs ih =>
    rw [List.pairwise_cons] at hp
    have h1 := ih (f.rank + 1) hp.2 (fun g hg => hf g (by simp [hg])) (fun g hg => hp.1 g hg)
    have h2 := moves_le_rankMoves c f (hf f (by simp))
    have h3 := hk f (by simp)
    have h4 := rank_le_six f
    rw [movesLeft_cons]
    generalize f.rank = r at *
    refine le_trans (Nat.add_le_add h2 h1) ?_
    interval_cases r <;> interval_cases k <;> simp [List.range_succ, rankMoves]

/-- Consistent active rules have fewer moves left than the sequencer allows between two events. -/
theorem movesLeft_lt_moveBound {c : Config} {fs : List Frame} (h : framesConsistent c fs = true) :
    movesLeft c fs < moveBound := by
  rw [framesConsistent_iff] at h
  have := movesLeft_le fs 0 h.1 h.2 (by simp)
  simp [List.range_succ, rankMoves] at this
  simp only [moveBound]
  omega


end Sys2Proof.Machine
end

