-- ==== Sys2Proof/Laws/Sequencer.lean ====
section
/-! SUPPORT. The sequencer between two events: it settles, what it reaches, and how many events lie on the way. -/

namespace Sys2Proof.Machine

/-! ### One advance -/

theorem advance_of_none {c : Config} {s : State} (hr : s.running = none) : s.advance c = s := by
  simp only [State.advance, hr]

theorem advance_of_nil {c : Config} {s : State} {o : Operation} (hr : s.running = some o) (hf : o.frames = []) :
    s.advance c = s.setRunning none := by
  simp only [State.advance, hr, hf]

theorem advance_of_frames {c : Config} {s : State} {o : Operation} {f : Frame} {fs : List Frame}
    (hr : s.running = some o) (hf : o.frames = f :: fs) :
    s.advance c = applyMove s o fs (f.move c s.busAddr s.bl) := by
  simp only [State.advance, hr, hf]

/-- After a move, either the operation has ended or its active rules are those the move leaves. -/
theorem applyMove_running (s : State) (o : Operation) (fs : List Frame) (m : Move) :
    (applyMove s o fs m).running = none ∨
      ∃ o', (applyMove s o fs m).running = some o' ∧ o'.frames = m.frames fs := by
  cases m <;> simp [applyMove, Operation.withFrames, Move.frames]
  cases fs <;> simp

/-- An advance appends at most one event. -/
theorem advance_log (c : Config) (s : State) : (s.advance c).log = s.log ∨ ∃ e, (s.advance c).log = e :: s.log := by
  cases hr : s.running with
  | none => rw [advance_of_none hr]; exact .inl rfl
  | some o =>
    cases hf : o.frames with
    | nil => rw [advance_of_nil hr hf]; exact .inl rfl
    | cons f fs =>
      rw [advance_of_frames hr hf]
      cases f.move c s.busAddr s.bl with
      | emit e _ => exact .inr ⟨e, by cases e <;> rfl⟩
      | _ => exact .inl rfl

/-! ### Settling -/

/-- Every operation in progress has consistent active rules. -/
def State.SequencerOk (c : Config) (s : State) : Prop :=
  ∀ o, s.running = some o → framesConsistent c o.frames = true

/-- How many moves the block has left at most. -/
def State.budget (c : Config) (s : State) : Nat :=
  match s.running with
  | none => 0
  | some o => movesLeft c o.frames + 1

/-- An advance keeps the active rules consistent and spends the budget. -/
theorem advance_ok {c : Config} {s : State} (h : s.SequencerOk c) :
    (s.advance c).SequencerOk c ∧ (s.running.isSome → (s.advance c).budget c < s.budget c) := by
  cases hr : s.running with
  | none => simpa [advance_of_none hr] using h
  | some o =>
    cases hf : o.frames with
    | nil => simp [advance_of_nil hr hf, State.SequencerOk, State.budget, hr]
    | cons f fs =>
      have hc := h o hr
      rw [hf] at hc
      have hm := move_consistent hc s.busAddr s.bl
      rw [advance_of_frames hr hf]
      obtain h0 | ⟨o', h1, h2⟩ := applyMove_running s o fs (f.move c s.busAddr s.bl)
      · simp [State.SequencerOk, State.budget, h0, hr]
      · simp only [State.SequencerOk, State.budget, h1, hr, h2, hf]
        exact ⟨fun o'' ho => by simp at ho; rw [← ho, h2]; exact hm.1, fun _ => by omega⟩

theorem budget_le {c : Config} {s : State} (h : s.SequencerOk c) : s.budget c ≤ moveBound := by
  unfold State.budget
  cases hr : s.running with
  | none => simp
  | some o => exact movesLeft_lt_moveBound (h o hr)

theorem settleWithin_settled {c : Config} (n : Nat) {s : State} (h : s.SequencerOk c) (hb : s.budget c ≤ n) :
    (settleWithin c n s).settled c = true ∧ (settleWithin c n s).SequencerOk c := by
  induction n generalizing s with
  | zero =>
    have : s.running = none := by
      cases hr : s.running with
      | none => rfl
      | some o => simp [State.budget, hr] at hb
    simp [settleWithin, State.settled, this, h]
  | succ n ih =>
    unfold settleWithin
    split
    · exact ⟨by assumption, h⟩
    · rename_i hs
      have hr : s.running.isSome := by
        cases hr : s.running with
        | none => simp [State.settled, hr] at hs
        | some o => rfl
      have hadv := advance_ok h
      exact ih hadv.1 (by have := hadv.2 hr; omega)

/-- Settling stops before an event or at the end of the operation, never for want of fuel. -/
theorem settle_settled {c : Config} {s : State} (h : s.SequencerOk c) :
    (s.settle c).settled c = true ∧ (s.settle c).SequencerOk c := settleWithin_settled _ h (budget_le h)

/-- A settled operation's next move is an event. -/
theorem settled_emits {c : Config} {s : State} (hs : s.settled c = true) {o : Operation} (hr : s.running = some o) :
    ∃ f fs e f', o.frames = f :: fs ∧ f.move c s.busAddr s.bl = .emit e f' := by
  simp only [State.settled, hr, State.nextMove] at hs
  cases hf : o.frames with
  | nil => simp [hf] at hs
  | cons f fs =>
    simp only [hf] at hs
    cases hm : f.move c s.busAddr s.bl <;> simp [hm] at hs
    exact ⟨f, fs, _, _, rfl, hm⟩

/-- Settling appends no event. -/
@[simp] theorem settle_log (c : Config) (s : State) : (s.settle c).log = s.log := by
  unfold State.settle
  generalize moveBound = n
  induction n generalizing s with
  | zero => rfl
  | succ n ih =>
    unfold settleWithin
    split
    · rfl
    · rename_i hs
      rw [ih]
      cases hr : s.running with
      | none => rw [advance_of_none hr]
      | some o =>
        cases hf : o.frames with
        | nil => rw [advance_of_nil hr hf]; rfl
        | cons f fs =>
          rw [advance_of_frames hr hf]
          simp only [State.settled, hr, State.nextMove, hf] at hs
          cases hm : f.move c s.busAddr s.bl <;> simp [hm] at hs <;> simp [applyMove]

/-- One event of a settled operation: the trace grows by it. -/
theorem tick_log_length {c : Config} {s : State} (hs : s.settled c = true) (hb : s.running ≠ none) :
    (s.tick c).log.length = s.log.length + 1 := by
  obtain ⟨o, hr⟩ := Option.ne_none_iff_exists'.1 hb
  obtain ⟨f, fs, e, f', hf, hm⟩ := settled_emits hs hr
  rw [State.tick, settle_log, advance_of_frames hr hf, hm]
  cases e <;> simp [applyMove, State.perform]

/-! ### Reaching a state by moves -/

/-- Some number of moves leads from `s` to `t`. -/
def Reaches (c : Config) (s t : State) : Prop := ∃ n, (State.advance c)^[n] s = t

theorem Reaches.refl (c : Config) (s : State) : Reaches c s s := ⟨0, rfl⟩

theorem Reaches.trans {c : Config} {s t u : State} (h₁ : Reaches c s t) (h₂ : Reaches c t u) : Reaches c s u := by
  obtain ⟨n, rfl⟩ := h₁
  obtain ⟨m, rfl⟩ := h₂
  exact ⟨m + n, by rw [Function.iterate_add_apply]⟩

theorem Reaches.step {c : Config} {s t : State} (h : Reaches c (s.advance c) t) : Reaches c s t := by
  obtain ⟨n, rfl⟩ := h
  exact ⟨n + 1, rfl⟩

/-- The idle block makes no move. -/
theorem Reaches.eq_of_idle {c : Config} {s t : State} (h : Reaches c s t) (hs : s.running = none) : t = s := by
  obtain ⟨n, rfl⟩ := h
  exact Function.iterate_fixed (advance_of_none hs) n

/-- The moves are deterministic: every state on the way to the end of an operation leads there. -/
theorem Reaches.through {c : Config} {s u t : State} (ht : Reaches c s t) (hu : Reaches c s u)
    (hi : t.running = none) : Reaches c u t := by
  obtain ⟨n, rfl⟩ := hu
  obtain ⟨m, rfl⟩ := ht
  rcases Nat.le_total n m with h | h
  · exact ⟨m - n, by rw [← Function.iterate_add_apply]; congr 1; omega⟩
  · refine ⟨0, ?_⟩
    rw [show n = (n - m) + m by omega, Function.iterate_add_apply]
    exact (Function.iterate_fixed (advance_of_none hi) _)

/-- Moves never take an event back. -/
theorem Reaches.log_length_le {c : Config} {s t : State} (h : Reaches c s t) : s.log.length ≤ t.log.length := by
  obtain ⟨n, rfl⟩ := h
  induction n generalizing s with
  | zero => simp
  | succ n ih =>
    refine le_trans ?_ (ih (s := s.advance c))
    obtain h | ⟨e, h⟩ := advance_log c s <;> simp [h]

theorem reaches_settle (c : Config) (s : State) : Reaches c s (s.settle c) := by
  unfold State.settle
  generalize moveBound = n
  induction n generalizing s with
  | zero => exact .refl c s
  | succ n ih =>
    unfold settleWithin
    split
    · exact .refl c s
    · exact .step (ih _)

theorem reaches_tick (c : Config) (s : State) : Reaches c s (s.tick c) := .step (reaches_settle c _)

/-! ### Counting events -/

theorem repeat_succ_left {α : Type} (f : α → α) (n : Nat) (a : α) :
    Nat.repeat f (n + 1) a = Nat.repeat f n (f a) := by
  induction n with
  | zero => rfl
  | succ n ih => simp only [Nat.repeat] at *; rw [ih]

theorem ticks_zero (c : Config) (s : State) : s.ticks c 0 = s := rfl

theorem ticks_succ (c : Config) (k : Nat) (s : State) : s.ticks c (k + 1) = (s.tick c).ticks c k :=
  repeat_succ_left _ _ _

/-- An operation that ends in `t` is ended by as many ticks as events are still to come, and by no fewer. -/
theorem ticks_to_end {c : Config} (n : Nat) {u t : State} (hok : u.SequencerOk c) (hs : u.settled c = true)
    (h : Reaches c u t) (hi : t.running = none) (hn : t.log.length = u.log.length + n) :
    u.ticks c n = t ∧ ∀ m < n, (u.ticks c m).busy = true := by
  have fewer : ∀ {v : State}, v.settled c = true → Reaches c v t → v.running ≠ none →
      v.log.length + 1 ≤ t.log.length := fun hv hr hb => by
    rw [← tick_log_length hv hb]
    exact (hr.through (reaches_tick c _) hi).log_length_le
  induction n generalizing u with
  | zero =>
    have hb : u.running = none := by
      by_contra hb
      have := fewer hs h hb
      omega
    exact ⟨(h.eq_of_idle hb).symm, by simp⟩
  | succ n ih =>
    have hb : u.running ≠ none := fun hb => by
      have := h.eq_of_idle hb
      subst this
      omega
    have hst := settle_settled (advance_ok hok).1
    have := ih (u := u.tick c) hst.2 hst.1 (h.through (reaches_tick c u) hi)
      (by rw [tick_log_length hs hb]; omega)
    refine ⟨by rw [ticks_succ]; exact this.1, fun m hm => ?_⟩
    cases m with
    | zero => simpa [ticks_zero, State.busy] using Option.isSome_iff_ne_none.2 hb
    | succ m => rw [ticks_succ]; exact this.2 m (by omega)

end Sys2Proof.Machine
end

