-- ==== Sys2Proof/Laws/Completes.lean ====
section
/-! SUPPORT. The two writings of each rule agree: the sequencer's moves through a rule (Machine/Sequencer.lean) lead
from the state it starts in to the state its operation answers (Machine/Ops.lean). -/

namespace Sys2Proof.Machine

open Params

/-- `s` with an operation in progress whose active rules are `fs`; with none left, no operation. -/
def State.inFrames (s : State) (opc : Byte) (k : Nat) (fs : List Frame) : State :=
  s.setRunning (Operation.withFrames ⟨opc, k, []⟩ fs)

theorem inFrames_nil (s : State) (opc : Byte) (k : Nat) : s.inFrames opc k [] = s.setRunning none := rfl

theorem inFrames_start (s : State) (i : Instr) :
    s.setRunning (some (Operation.start i)) = s.inFrames i.op.code 0 [Frame.start i] := rfl

theorem advance_inFrames (c : Config) (s : State) (opc : Byte) (k : Nat) (f : Frame) (fs : List Frame) :
    (s.inFrames opc k (f :: fs)).advance c =
      applyMove (s.inFrames opc k (f :: fs)) ⟨opc, k, f :: fs⟩ fs (f.move c s.busAddr s.bl) := rfl

/-- A rule runs to its end and takes `s` to `t`, whatever rules it stands above. -/
def Completes (c : Config) (f : Frame) (s t : State) : Prop :=
  ∀ opc k fs, ∃ k', Reaches c (s.inFrames opc k (f :: fs)) (t.inFrames opc k' fs)

/-! ### One move and then the rest -/

section

variable {c : Config} {f g f' : Frame} {s t u : State}

theorem Completes.ret (h : f.move c s.busAddr s.bl = .ret) : Completes c f s s := fun opc k fs => by
  refine ⟨k, .step ?_⟩
  rw [advance_inFrames, h]
  cases fs <;> exact .refl _ _

theorem Completes.goto (h : f.move c s.busAddr s.bl = .goto f') (h' : Completes c f' s t) : Completes c f s t :=
  fun opc k fs => (h' opc k fs).imp fun _ hr => .step (by rw [advance_inFrames, h]; exact hr)

theorem Completes.emit {e : Event} (h : f.move c s.busAddr s.bl = .emit e f') (h' : Completes c f' (s.perform e) t) :
    Completes c f s t := fun opc k fs => (h' opc (k + 1) fs).imp fun _ hr => .step (by
  rw [advance_inFrames, h]
  cases e <;> exact hr)

theorem Completes.bindAddr {a : BusAddress} (h : f.move c s.busAddr s.bl = .bindAddr a f')
    (h' : Completes c f' (s.setBusAddr a) t) : Completes c f s t :=
  fun opc k fs => (h' opc k fs).imp fun _ hr => .step (by rw [advance_inFrames, h]; exact hr)

theorem Completes.writeBl {b : Backlight} (h : f.move c s.busAddr s.bl = .writeBl b f')
    (h' : Completes c f' (s.setBl b) t) : Completes c f s t :=
  fun opc k fs => (h' opc k fs).imp fun _ hr => .step (by rw [advance_inFrames, h]; exact hr)

theorem Completes.writePhase {ph : Phase} (h : f.move c s.busAddr s.bl = .writePhase ph f')
    (h' : Completes c f' (s.setPhase ph) t) : Completes c f s t :=
  fun opc k fs => (h' opc k fs).imp fun _ hr => .step (by rw [advance_inFrames, h]; exact hr)

theorem Completes.call (h : f.move c s.busAddr s.bl = .call g f') (hg : Completes c g s t)
    (h' : Completes c f' t u) : Completes c f s u := fun opc k fs => by
  obtain ⟨k₁, h₁⟩ := hg opc k (f' :: fs)
  obtain ⟨k₂, h₂⟩ := h' opc k₁ fs
  exact ⟨k₂, .step (by rw [advance_inFrames, h]; exact h₁.trans h₂)⟩

end

/-! ### Each rule -/

theorem wrnib_completes (c : Config) (v : Byte) (s : State) : Completes c (.wrnib v .guard) s (wrnib v s) := by
  cases h : s.busAddr with
  | none =>
    rw [wrnib_unset h]
    exact .ret (by simp [Frame.move, moveWrnib, h])
  | some a =>
    simp only [wrnib, h]
    refine .goto (f' := .wrnib v .low) (by simp [Frame.move, moveWrnib, h]) ?_
    refine .emit (e := .w a (enClear v)) (f' := .wrnib v .high) (by simp [Frame.move, moveWrnib, moveWrite, h]) ?_
    refine .emit (e := .w a (enSet v)) (f' := .wrnib v .hold)
      (by simp [Frame.move, moveWrnib, moveWrite, h, State.perform]) ?_
    refine .emit (f' := .wrnib v .lowAgain) rfl ?_
    refine .emit (e := .w a (enClear v)) (f' := .wrnib v .settle)
      (by simp [Frame.move, moveWrnib, moveWrite, h, State.perform]) ?_
    exact .emit (f' := .wrnib v .leave) rfl (.ret rfl)

theorem send_completes (c : Config) (rs : RegSel) (p : Byte) (s : State) :
    Completes c (.send rs p .first) s (send rs p.toNat s) :=
  .call rfl (wrnib_completes c _ s) (.call rfl (wrnib_completes c _ _) (.ret rfl))

theorem sendcmd_completes (c : Config) (p : Byte) (s : State) :
    Completes c (.sendcmd p .first) s (sendCmd p.toNat s) :=
  .call rfl (send_completes c _ _ s) (.ret rfl)

theorem senddat_completes (c : Config) (p : Byte) (s : State) :
    Completes c (.senddat p .first) s (sendDat p.toNat s) :=
  .call rfl (send_completes c _ _ s) (.ret rfl)

/-- The 8-bit latch of SENDCMD loses nothing of SETCUR's sum that SEND would use (rule R63). -/
theorem setcur_completes (c : Config) (line column : Byte) (s : State) :
    Completes c (.setcur line column .first) s (setCur line.toNat column.toNat s) := by
  unfold setCur
  rw [← sendCmd_latchByte]
  exact .call rfl (sendcmd_completes c _ s) (.ret rfl)

/-- SETCUR called by SHOWSTR, whose line and column are within the latches. -/
theorem setcur_called {line column : Nat} (hl : line < 256) (hc : column < 256) (c : Config) (s : State) :
    Completes c (.setcur (latchByte line) (latchByte column) .first) s (setCur line column s) := by
  have := setcur_completes c (latchByte line) (latchByte column) s
  rwa [latchByte_toNat hl, latchByte_toNat hc] at this

/-- The stop test, and what follows it where it does not stop. -/
theorem stop_completes {c : Config} {f f' : Frame} {s t : State} (idx : Nat)
    (h : f.move c s.busAddr s.bl = moveStop idx f') (h' : idx ≤ 31 → Completes c f' s t) :
    Completes c f s (if beyondDisplay idx then s else t) := by
  unfold moveStop at h
  split
  · exact .ret (by rw [h, if_pos]; assumption)
  · exact .goto (by rw [h, if_neg]; assumption) (h' (by have := mt (beyondDisplay_iff idx).2 ‹_›; omega))

/-- The line test with its cursor re-set, and what follows. -/
theorem lineReset_completes {c : Config} {f f' : Frame} {s t : State} (i idx : Nat) (hx : idx ≤ 32)
    (h : f.move c s.busAddr s.bl = moveLineReset i idx f') (h' : Completes c f' (lineReset i idx s) t) :
    Completes c f s t := by
  unfold moveLineReset at h
  unfold lineReset at h'
  split at h
  · exact .call h (setcur_called (by unfold lineOf cols; omega) (by decide) c s)
      (by rwa [if_pos (by assumption)] at h')
  · exact .goto h (by rwa [if_neg (by assumption)] at h')

theorem showLoop_completes (c : Config) (pos : Byte) (text rest : List Byte) (i : Nat) (hr : text.drop i = rest)
    (hx : pos.toNat + i ≤ 32) (s : State) : Completes c (.showstr pos text (.loop i)) s (showLoop c pos.toNat i rest s) := by
  induction rest generalizing i s with
  | nil =>
    have : text.length ≤ i := by simpa using hr
    exact .ret (by simp [Frame.move, moveShowstr, this])
  | cons ch rest ih =>
    have hi : i < text.length := by
      by_contra hc
      simp [List.drop_eq_nil_of_le (Nat.le_of_not_lt hc)] at hr
    have hch : text.getD i 0 = ch := by
      simpa [List.getD] using congrArg (fun l => l.getD 0 0) hr
    have hrest : text.drop (i + 1) = rest := by
      rw [← List.drop_drop, hr]
      rfl
    have hchar : ∀ u, pos.toNat + i ≤ 31 → Completes c (.showstr pos text (.char i (pos.toNat + i))) u
        (showLoop c pos.toNat (i + 1) rest (sendDat ch.toNat u)) := fun u hu =>
      .call (g := .senddat ch .first) (f' := .showstr pos text (.loop (i + 1)))
        (by simp only [Frame.move, moveShowstr, hch]) (senddat_completes c _ u) (ih _ hrest (by omega) _)
    refine .goto (f' := .showstr pos text (.firstTest i (pos.toNat + i))) (by simp [Frame.move, moveShowstr, hi]) ?_
    cases hc : c.stopBeforeWrap
    · have := stop_completes (f := .showstr pos text (.secondTest i (pos.toNat + i))) (pos.toNat + i)
        (by simp [Frame.move, moveShowstr, hc]) (hchar (lineReset i (pos.toNat + i) s))
      refine lineReset_completes (f' := .showstr pos text (.secondTest i (pos.toNat + i))) i (pos.toNat + i) hx
        (by simp [Frame.move, moveShowstr, hc]) ?_
      simpa [showLoop, hc] using this
    · have := stop_completes (f := .showstr pos text (.firstTest i (pos.toNat + i))) (pos.toNat + i)
        (by simp [Frame.move, moveShowstr, hc])
        (fun h31 => lineReset_completes (f := .showstr pos text (.secondTest i (pos.toNat + i))) i (pos.toNat + i) hx
          (by simp [Frame.move, moveShowstr, hc]) (hchar (lineReset i (pos.toNat + i) s) h31))
      simpa [showLoop, hc] using this

theorem showstr_completes (c : Config) (pos : Byte) (text : List Byte) (s : State) :
    Completes c (.showstr pos text .enter) s (showStr c text pos.toNat s) := by
  unfold showStr
  split
  · exact .ret (by simp [Frame.move, moveShowstr, *])
  · have hp : pos.toNat ≤ 31 := by have := mt (beyondDisplay_iff pos.toNat).2 ‹_›; omega
    exact .call (by simp only [Frame.move, moveShowstr, *]; rfl)
      (setcur_called (by unfold lineOf cols; omega) (by unfold columnOf cols; omega) c s)
      (showLoop_completes c pos text text 0 rfl (by omega) _)

theorem shownum_completes (c : Config) (pos : Byte) (v : Word32) (s : State) :
    Completes c (.shownum pos v .first) s (showNum c v.toInt pos.toNat s) :=
  .call rfl (showstr_completes c _ _ s) (.ret rfl)

theorem clear_completes (c : Config) (s : State) : Completes c (.clear .first) s (clearAll c s) :=
  .call rfl (showstr_completes c _ _ s) (.ret rfl)

theorem setbl_completes (c : Config) (b : Backlight) (s : State) :
    Completes c (.setbl b .first) s (setBacklight c b s) := by
  unfold setBacklight
  split
  · exact .ret (by simp [Frame.move, moveSetbl, *])
  · exact .writeBl (f' := .setbl b .second) (by simp only [Frame.move, moveSetbl, *]; rfl)
      (.call rfl (sendcmd_completes c _ _) (.ret rfl))

theorem forceOnce_completes {c : Config} {addr : Byte} (rep : Nat) {s t : State}
    (h : Completes c (.connect addr (if rep + 1 < forceRepeats then .force (rep + 1) else .enter .fourBitSelect))
      (forceOnce c s) t) :
    Completes c (.connect addr (.force rep)) s t := .call rfl (wrnib_completes c _ s) (.emit rfl h)

theorem handshake_completes (c : Config) (addr : Byte) (s : State) :
    Completes c (.connect addr .bind) s (handshake c (addressField addr) s) := by
  refine .bindAddr rfl (.writePhase rfl (.emit rfl (.emit rfl (.emit rfl (.writePhase rfl ?_)))))
  refine forceOnce_completes 0 (forceOnce_completes 1 (forceOnce_completes 2 ?_))
  refine .writePhase rfl (.call rfl (wrnib_completes c _ _) (.emit rfl ?_))
  refine .writePhase rfl (.call rfl (sendcmd_completes c _ _) (.emit rfl ?_))
  refine .writePhase rfl (.call rfl (sendcmd_completes c _ _) (.emit rfl ?_))
  refine .writePhase rfl (.call rfl (sendcmd_completes c _ _) (.emit rfl ?_))
  exact .writePhase rfl (.call rfl (clear_completes c _) (.writePhase rfl (.ret rfl)))

theorem connect_completes (c : Config) (addr : Byte) (s : State) :
    Completes c (.connect addr .validate) s (connect c addr s) := by
  unfold connect
  split
  · exact .ret (by simp [Frame.move, moveConnect, *])
  · exact .goto (f' := .connect addr .bind) (by simp [Frame.move, moveConnect, *]) (handshake_completes c addr s)

end Sys2Proof.Machine
end

