-- ==== Sys2Proof/Laws/Decode.lean ====
section
/-! SUPPORT. Small lemmas of the packet decoder and encoder. -/

namespace Sys2Proof

/-- The opcode map has no two rows alike, and reading a code back gives its opcode (rule R72). -/
@[simp] theorem op_ofByte_code (o : Op) : Op.ofByte o.code = some o := by cases o <;> decide

theorem op_code_injective {o o' : Op} (h : o.code = o'.code) : o = o' := by
  have := op_ofByte_code o
  rw [h, op_ofByte_code] at this
  exact (Option.some.inj this).symm

/-- A byte that names an opcode is that opcode's code. -/
theorem op_code_of_ofByte {b : Byte} {o : Op} (h : Op.ofByte b = some o) : o.code = b := by
  have := List.find?_some h
  simpa using this

@[simp] theorem backlight_ofByte_byte (b : Backlight) : Backlight.ofByte b.byte = some b := by cases b <;> decide

@[simp] theorem regSel_ofByte_byte (r : RegSel) : RegSel.ofByte r.byte = some r := by cases r <;> decide

/-- The decoder reads the opcode first, then the operands of its format. -/
@[simp] theorem decode_code_cons (o : Op) (operands : List Byte) :
    decode (o.code :: operands) = decodeOperands o operands := by
  simp [decode]

@[simp] theorem encode_ne_nil (i : Instr) : encode i ≠ [] := by simp [encode]

end Sys2Proof
end

