-- ==== Sys2Proof/Laws/PerInstr.lean ====
section
/-! SUPPORT. Statements made for every instruction as syntax, one lemma a constructor (LAWS.json names the
families). -/

namespace Sys2Proof.Laws.PacketShape

/-- A command's packet begins with its opcode (rule R72), and a well-formed command's packet has the length that rule
R73 gives for its opcode and third byte. -/
def Statement (i : Instr) : Prop :=
  (encode i).head? = some i.op.code ∧
    (i.wf = true → (encode i).length = packetLength i.op ((encode i).getD 2 0))

theorem connect (addr : Byte) : Statement (.connect addr) := ⟨rfl, fun _ => rfl⟩

theorem showstr (pos : Byte) (text : List Byte) : Statement (.showstr pos text) := by
  refine ⟨rfl, fun h => ?_⟩
  have h : text.length ≤ 255 := by simpa [Instr.wf, Instr.textFits] using h
  simp [encode, encodeOperands, packetLength, Instr.op, Nat.mod_eq_of_lt (show text.length < 256 by omega)]
  omega

theorem shownum (pos : Byte) (value : Word32) : Statement (.shownum pos value) := ⟨rfl, fun _ => rfl⟩

theorem clear : Statement .clear := ⟨rfl, fun _ => rfl⟩

theorem setbl (state : Backlight) : Statement (.setbl state) := ⟨rfl, fun _ => rfl⟩

theorem wrnib (value : Byte) : Statement (.wrnib value) := ⟨rfl, fun _ => rfl⟩

theorem send (rs : RegSel) (payload : Byte) : Statement (.send rs payload) := ⟨rfl, fun _ => rfl⟩

theorem sendcmd (payload : Byte) : Statement (.sendcmd payload) := ⟨rfl, fun _ => rfl⟩

theorem senddat (payload : Byte) : Statement (.senddat payload) := ⟨rfl, fun _ => rfl⟩

theorem setcur (line column : Byte) : Statement (.setcur line column) := ⟨rfl, fun _ => rfl⟩

end Sys2Proof.Laws.PacketShape
end

