-- ==== Sys2Proof/Tests/Slice0.lean ====
section
/-! SUPPORT. Tests of the model, each about one step or one packet, with expected values taken from the spec's own
vectors (the rule or section is named at each test); and, after them, a witness for the hypotheses of each statement of
Certificates/Slice0/Obligations.lean that has any. -/

namespace Sys2Proof.Tests

open Sys2Proof Sys2Proof.Machine Sys2Proof.Claims

/-! ### Helpers -/

/-- The block connected to address `a`, with the backlight as given and an empty trace. -/
def ready (a : BusAddress) (bl : Backlight) : State :=
  { State.reset with busAddr := some a, bl := bl, phase := .ready }

/-- The same, about to take a packet. -/
def offering (s : State) (bytes : List Byte) : State := { s with inputs := [.packet bytes] }

/-- The state an outcome gives. -/
def after : Host.Outcome State Fault Refusal → Option State
  | .next t => some t
  | .fault _ | .refused _ => none

/-- The bytes written in one step of a block that starts with an empty trace. -/
def bytesAfter (o : Host.Outcome State Fault Refusal) : Option (List Byte) := (after o).map fun t => writtenBytes t.trace

/-- The framed view of one step of a block that starts with an empty trace. -/
def framesAfter (o : Host.Outcome State Fault Refusal) : Option (List FrameToken) :=
  (after o).map fun t => framedView t.trace

/-- The registers after one step. -/
def registersOf (o : Host.Outcome State Fault Refusal) : Option (Option BusAddress × Backlight × Phase) :=
  (after o).map fun t => (t.busAddr, t.bl, t.phase)

/-- Frames as the spec writes them, `C` and `D`. -/
def cmd (b : Byte) : FrameToken := .frame .command b
def dat (b : Byte) : FrameToken := .frame .data b

/-! ### Well-formedness -/

/-- A text of 256 characters has no packet (R73), and the bytes the encoder lays out for it are refused. -/
theorem test_wf_refuses_long_text :
    (Instr.showstr 0 (List.replicate 256 0x41)).wf = false ∧
      decode (encode (.showstr 0 (List.replicate 256 0x41))) = .ignored (.wrongLength .showstr) := by decide +kernel

theorem test_wf_accepts_longest_text : (Instr.showstr 0 (List.replicate 255 0x41)).wf = true := by decide +kernel

/-! ### Decoding: packets written out from the encodings of R71 and R72 -/

theorem test_decode_connect : decode [0b00000001, 0b00100111] = .cmd (.connect 39) := by decide
theorem test_decode_showstr :
    decode [0b00000010, 0b00001111, 0b00000010, 0b01001000, 0b01001001] = .cmd (.showstr 15 [0x48, 0x49]) := by decide
theorem test_decode_shownum :
    decode [0b00000011, 0b00011110, 0b11010110, 0b11111111, 0b11111111, 0b11111111] = .cmd (.shownum 30 (-42)) := by
  decide
theorem test_decode_clear : decode [0b00000100] = .cmd .clear := by decide
theorem test_decode_setbl : decode [0b00000101, 0b00000000] = .cmd (.setbl .off) := by decide
theorem test_decode_wrnib : decode [0b00010000, 0b00111100] = .cmd (.wrnib 0x3C) := by decide
theorem test_decode_send : decode [0b00010001, 0b00000001, 0b01001000] = .cmd (.send .data 0x48) := by decide
theorem test_decode_sendcmd : decode [0b00010010, 0b00101000] = .cmd (.sendcmd 0x28) := by decide
theorem test_decode_senddat : decode [0b00010011, 0b01000001] = .cmd (.senddat 0x41) := by decide
theorem test_decode_setcur : decode [0b00010100, 0b00000001, 0b01000000] = .cmd (.setcur 1 64) := by decide

/-- The values of 95_test_vectors.md section 2.5, byte by byte. -/
theorem test_shownum_value_bytes :
    encode (.shownum 0 12345) = [0x03, 0x00, 0x39, 0x30, 0x00, 0x00] ∧
      encode (.shownum 0 (BitVec.ofInt 32 (-2147483648))) = [0x03, 0x00, 0x00, 0x00, 0x00, 0x80] := by decide

/-- The malformed packets of 95_test_vectors.md section 2.5, each with its case of R74. -/
theorem test_malformed_packets :
    decode [] = .ignored .empty ∧
    ([0x00, 0x06, 0x0F, 0x15, 0xFF] : List Byte).all (fun b => decode [b] == .ignored (.reservedOpcode b)) ∧
    decode [0x01] = .ignored (.wrongLength .connect) ∧
    decode [0x01, 0x27, 0x00] = .ignored (.wrongLength .connect) ∧
    decode [0x04, 0x00] = .ignored (.wrongLength .clear) ∧ decode [0x05] = .ignored (.wrongLength .setbl) ∧
    decode [0x05, 0x02] = .ignored (.badBacklight 0x02) ∧ decode [0x11, 0x01] = .ignored (.wrongLength .send) ∧
    decode [0x11, 0x02, 0x41] = .ignored (.badRegSel 0x02) ∧ decode [0x14, 0x00] = .ignored (.wrongLength .setcur) ∧
    decode [0x02, 0x00] = .ignored (.wrongLength .showstr) ∧
    decode [0x02, 0x00, 0x01] = .ignored (.wrongLength .showstr) ∧
    decode [0x02, 0x00, 0x01, 0x41, 0x42] = .ignored (.wrongLength .showstr) ∧
    decode [0x03, 0x00, 0x01, 0x00, 0x00] = .ignored (.wrongLength .shownum) := by decide

/-- A malformed packet changes nothing (R74). -/
theorem test_malformed_ignored : after (step (offering (ready 39 .on) [0x05, 0x02])) = some (ready 39 .on) := by decide

/-- The table's bit numbering: byte 0 of the packet in bits 7:0 (R71). -/
theorem test_table_words :
    decodeTableWord 16 0x2701 = some (.connect 39) ∧ decodeTableWord 24 0x480111 = some (.send .data 0x48) ∧
    decodeTableWord 48 0xFFFFFFD61E03 = some (.shownum 30 (-42)) ∧ decodeTableWord 8 0x02 = some (.showstr 0 []) ∧
    decodeTableWord 24 0x020F02 = some (.showstr 15 [0x00, 0x00]) ∧ decodeTableWord 8 0x06 = none ∧
    decodeTableWord 16 0x0205 = none := by decide

/-- The table word's instruction is the first the block runs after reset. -/
theorem test_fetch_word : registersOf (step (State.reset.withFetchWord 16 0x0005)) = some (none, .off, .unconnected) := by
  decide

/-! ### The nibble transport (R93) -/

theorem test_wrnib_ignores_enable_bit :
    (after (exec (.wrnib 0x3C) (ready 39 .on))).map State.trace =
      some [.w 39 0x38, .w 39 0x3C, .dus 1, .w 39 0x38, .dus 50] := by decide

theorem test_wrnib_passes_bit_one : bytesAfter (exec (.wrnib 0xFF) (ready 39 .off)) = some [0xFB, 0xFF, 0xFB] := by decide

/-! ### The framer (R105) -/

theorem test_send_high_nibble_first :
    bytesAfter (exec (.send .data 0x48) (ready 39 .on)) = some [0x49, 0x4D, 0x49, 0x89, 0x8D, 0x89] := by decide

theorem test_send_while_unset : after (exec (.send .command 0xFF) State.reset) = some State.reset := by decide

theorem test_sendcmd_bytes :
    bytesAfter (exec (.sendcmd 0x8F) (ready 39 .off)) = some [0x80, 0x84, 0x80, 0xF0, 0xF4, 0xF0] := by decide

theorem test_senddat_bytes :
    bytesAfter (exec (.senddat 0x48) (ready 39 .off)) = some [0x41, 0x45, 0x41, 0x81, 0x85, 0x81] := by decide

/-! ### CONNECT (R117, and 95_test_vectors.md section 2.3) -/

/-- The first 24 events from reset, the counts of R183 and the end state. -/
theorem test_connect_from_reset :
    (after (exec (.connect 39) State.reset)).map (fun t => t.trace.take 24) =
      some [.dms 50, .w 39 0x08, .dms 50, .w 39 0x38, .w 39 0x3C, .dus 1, .w 39 0x38, .dus 50, .dus 4100, .w 39 0x38,
        .w 39 0x3C, .dus 1, .w 39 0x38, .dus 50, .dus 4100, .w 39 0x38, .w 39 0x3C, .dus 1, .w 39 0x38, .dus 50,
        .dus 4100, .w 39 0x28, .w 39 0x2C, .dus 1] ∧
    (after (exec (.connect 39) State.reset)).map (fun t => costOf t.trace) =
      some ⟨400, 235, 78, 78, 2, 3, 4, 120278⟩ ∧
    registersOf (exec (.connect 39) State.reset) = some (some 39, .on, .ready) := by decide +kernel

/-- With BL OFF at entry the first 40 bytes are those of R117, and BL stays OFF. -/
theorem test_connect_backlight_off :
    (after (exec (.connect 39) { State.reset with bl := .off })).map
        (fun t => ((writtenBytes t.trace).take 40, t.bl)) =
      some ([0x00, 0x30, 0x34, 0x30, 0x30, 0x34, 0x30, 0x30, 0x34, 0x30, 0x20, 0x24, 0x20, 0x20, 0x24, 0x20, 0x80, 0x84,
        0x80, 0x00, 0x04, 0x00, 0xC0, 0xC4, 0xC0, 0x00, 0x04, 0x00, 0x60, 0x64, 0x60, 0x80, 0x84, 0x80, 0x00, 0x04, 0x00,
        0x21, 0x25, 0x21], .off) := by decide +kernel

/-! ### The display operations (R122, R131, R127, R128) -/

theorem test_setcur_any_other_line :
    bytesAfter (exec (.setcur 255 3) (ready 39 .on)) = some [0xC8, 0xCC, 0xC8, 0x38, 0x3C, 0x38] := by decide

/-- The sum 0x1BF, of which bits 7:0 are sent. -/
theorem test_setcur_wide_sum :
    bytesAfter (exec (.setcur 1 255) (ready 39 .on)) = some [0xB8, 0xBC, 0xB8, 0xF8, 0xFC, 0xF8] := by decide

/-- The scenario of D0 §8. -/
theorem test_showstr_wraps :
    framesAfter (exec (.showstr 15 [0x48, 0x49]) (ready 39 .on)) = some [cmd 0x8F, dat 0x48, cmd 0xC0, dat 0x49] := by
  decide

/-- 33 characters from 0: the 33rd sends nothing, and no command follows the last cell. -/
theorem test_showstr_stops :
    framesAfter (exec (.showstr 0 (List.replicate 33 0x41)) (ready 39 .on)) =
      some (cmd 0x80 :: List.replicate 16 (dat 0x41) ++ cmd 0xC0 :: List.replicate 16 (dat 0x41)) := by decide +kernel

theorem test_shownum_cut :
    framesAfter (exec (.shownum 30 (-42)) (ready 39 .on)) = some [cmd 0xCE, dat 0x2D, dat 0x34] := by decide

theorem test_shownum_most_negative :
    framesAfter (exec (.shownum 0 (BitVec.ofInt 32 (-2147483648))) (ready 39 .on)) =
      some [cmd 0x80, dat 0x2D, dat 0x32, dat 0x31, dat 0x34, dat 0x37, dat 0x34, dat 0x38, dat 0x33, dat 0x36, dat 0x34,
        dat 0x38] := by decide +kernel

theorem test_clear_frames :
    framesAfter (exec .clear (ready 39 .on)) =
      some (cmd 0x80 :: List.replicate 16 (dat 0x20) ++ cmd 0xC0 :: List.replicate 16 (dat 0x20)) := by decide +kernel

theorem test_setbl_pushes_new_bit :
    bytesAfter (exec (.setbl .off) (ready 39 .on)) = some [0x00, 0x04, 0x00, 0x00, 0x04, 0x00] := by decide

theorem test_setbl_while_unset : after (exec (.setbl .off) State.reset) = some { State.reset with bl := .off } := by decide

/-! ### The event view -/

/-- 95_test_vectors.md, "Reset in the middle": the trace after 11 events of CONNECT(39), one event a step. -/
theorem test_eleven_events_of_connect :
    ((State.reset.accept Params.spec (.connect 39)).ticks Params.spec 11).trace =
      [.dms 50, .w 39 0x08, .dms 50, .w 39 0x38, .w 39 0x3C, .dus 1, .w 39 0x38, .dus 50, .dus 4100, .w 39 0x38,
        .w 39 0x3C] := by decide +kernel

/-- The block is busy before the last event of a frame and idle after it (R27). -/
theorem test_busy_until_last_event :
    (((ready 39 .on).accept Params.spec (.sendcmd 0x28)).ticks Params.spec 9).busy = true ∧
      (((ready 39 .on).accept Params.spec (.sendcmd 0x28)).ticks Params.spec 10).busy = false := by decide +kernel

/-! ### The assembler (the lines of programs P1 to P5 in 95_test_vectors.md) -/

theorem test_assemble_lines :
    assembleText "connect(-1)".toList = some [0x01, 0xFF] ∧
    assembleText "showString(\"HI\", position(15))".toList = some [0x02, 0x0F, 0x02, 0x48, 0x49] ∧
    assembleText "showNumber(-42, 30)".toList = some [0x03, 0x1E, 0xD6, 0xFF, 0xFF, 0xFF] ∧
    assembleText "setBacklight(OFF)".toList = some [0x05, 0x00] ∧
    assembleText "writeNibble(0x3C)".toList = some [0x10, 0x3C] ∧
    assembleText "send(data, 0xFF)".toList = some [0x11, 0x01, 0xFF] ∧
    assembleText "setCursor(1, 64)".toList = some [0x14, 0x01, 0x40] ∧
    assembleText "connect(128)".toList = none := by decide +kernel

/-! ### Witnesses: states and operands that meet the hypotheses of each statement -/

/-- A parameter record with every choice the other way. -/
def otherConfig : Config where
  cmdFunctionSet := 0x2C
  cmdDisplayCtrl := 0x0F
  cmdEntryMode := 0x04
  charSpace := 0x5F
  initNibbleOrBacklight := false
  stopBeforeWrap := false
  guardScope := .allOperations

/-- CONNECT(39) after three of its events, with inputs still to come. -/
def midConnect (ins : List HostInput) : State :=
  { (State.reset.accept Params.spec (.connect 39)).ticks Params.spec 3 with inputs := ins, view := .event }

/-- Idle with any count, and busy with the count at 0. -/
theorem witness_ResetInputForcesResetState :
    (∃ (s : State) (rest : List HostInput), s.inputs = .reset 5 :: rest ∧ (s.busy = false ∨ 5 = 0)) ∧
    ∃ (s : State) (rest : List HostInput), s.inputs = .reset 0 :: rest ∧ s.busy = true :=
  ⟨⟨{ ready 39 .off with inputs := [.reset 5] }, [], rfl, .inl rfl⟩,
    ⟨midConnect [.reset 0], [], rfl, by decide +kernel⟩⟩

/-- Every position of the reset, from before the first event to after the last. -/
theorem witness_ResetAbandonsOperationAtEvent :
    ∃ (i : Instr) (s u : State) (evs : List Event), i.wf = true ∧ s.running = none ∧ s.view = .event ∧
      exec i s = .next u ∧ u.trace = s.trace ++ evs ∧ evs.length = 400 ∧
      s.inputs = [.packet (encode i), .reset 11] := by
  refine ⟨.connect 39, { State.reset with view := .event, inputs := [.packet [0x01, 0x27], .reset 11] }, _, _, rfl, rfl,
    rfl, rfl, (List.nil_append _).symm, by decide +kernel, rfl⟩

theorem witness_NibbleTransmissionShape : (ready 0 .on).busAddr = some 0 ∧ (ready 127 .off).busAddr = some 127 :=
  ⟨rfl, rfl⟩

theorem witness_SendFramesHighNibbleFirst :
    BitVec.ofNat 8 0x100 = (0x00 : Byte) ∧ BitVec.ofNat 8 0x1BF = (0xBF : Byte) := by decide

theorem witness_FrameIsTwoTransmissions :
    Instr.send .command 0x28 ∈ [Instr.send .command 0x28, .sendcmd 0x28] ∧
      Instr.senddat 0x48 ∈ [Instr.send .data 0x48, .senddat 0x48] := by decide

theorem witness_BacklightBitOnEveryWrite : ∀ v : Byte, Instr.clear ≠ .wrnib v := by intro v h; cases h

/-- The boundary of the sign bit: -128 and -1 are negative, 0 and 127 are not. -/
theorem witness_NegativeAddressIgnored :
    (0x80 : Byte).toInt < 0 ∧ (0xFF : Byte).toInt < 0 ∧ ¬(0x00 : Byte).toInt < 0 ∧ ¬(0x7F : Byte).toInt < 0 := by decide

theorem witness_HandshakeForEveryParameter :
    0 ≤ (0x00 : Byte).toInt ∧ 0 ≤ (0x7F : Byte).toInt ∧ otherConfig.initNibbleOrBacklight = false ∧
      Params.spec.initNibbleOrBacklight = true := by decide

theorem witness_ReconnectOverwritesAddress : 0 ≤ (0x3F : Byte).toInt ∧ (ready 39 .on).phase = .ready := by decide

theorem witness_PhaseDuringConnect : State.reset.running = none ∧ 0 ≤ (0x27 : Byte).toInt ∧ 0 ≤ 400 ∧ 400 ≤ 400 := by decide

/-- Both lines at their ends. -/
theorem witness_PositionToCommandMap :
    cursorCommand (lineOf 0) (columnOf 0) = 0x80 ∧ cursorCommand (lineOf 15) (columnOf 15) = 0x8F ∧
      cursorCommand (lineOf 16) (columnOf 16) = 0xC0 ∧ cursorCommand (lineOf 31) (columnOf 31) = 0xCF := by decide

theorem witness_ShowstrFramedView : (ready 39 .on).busAddr = some 39 := rfl

theorem witness_TextStaysOnDisplay : (ready 39 .off).busAddr = some 39 := rfl

/-- The other order of tests differs for a text that reaches index 32 and not for one that ends at 31. -/
theorem witness_OtherTestOrderSendsOneMore :
    otherConfig.stopBeforeWrap = false ∧
      framedView (showStr otherConfig [0x41, 0x42] 31 (ready 39 .on)).trace = [cmd 0xCF, dat 0x41, cmd 0xC0] ∧
      framedView (showStr otherConfig [0x41] 31 (ready 39 .on)).trace = [cmd 0xCF, dat 0x41] := by decide +kernel

/-- Both cases of the guard. -/
theorem witness_OtherGuardScopeKeepsBacklight :
    otherConfig.guardScope = .allOperations ∧ State.reset.busAddr = none ∧ (ready 39 .on).busAddr ≠ none := by decide

/-- A negative number, zero (the one numeral that begins with 0), and a numeral with a 0 inside. -/
theorem witness_DecimalStringIsCanonical :
    decimalString (-42) = [0x2D, 0x34, 0x32] ∧ decimalString 0 = [0x30] ∧ decimalString 105 = [0x31, 0x30, 0x35] := by
  decide

/-- An operation that is neither CONNECT nor SETBL. -/
theorem witness_RegistersOnlyTheirWriterChanges :
    (∀ addr, Instr.setcur 0 15 ≠ .connect addr) ∧ ∀ b, Instr.setcur 0 15 ≠ .setbl b := by
  constructor <;> intro x h <;> cases h

/-- CONNECT with a negative address, an operation that is no CONNECT, and SETBL. -/
theorem witness_SilentWhileAddressUnset :
    State.reset.busAddr = none ∧ (∀ addr, Instr.connect 0xFF = .connect addr → addr.toInt < 0) ∧
      (∀ addr, Instr.clear = .connect addr → addr.toInt < 0) ∧
      ∀ addr, Instr.setbl .off = .connect addr → addr.toInt < 0 := by
  refine ⟨rfl, ?_, ?_, ?_⟩ <;> intro addr h <;> cases h
  decide

theorem witness_InvalidInputIgnored :
    (0xFF : Byte).toInt < 0 ∧ 31 < (32 : Byte).toNat ∧ ¬31 < (31 : Byte).toNat ∧ malformed [0x06] ∧
      (offering (ready 39 .on) [0x06]).running = none ∧ (offering (ready 39 .on) [0x06]).inputs = [.packet [0x06]] :=
  ⟨by decide, by decide, by decide, .inr ⟨0x06, [], rfl, .inl (by decide)⟩, rfl, rfl⟩

theorem witness_DecodeOfEncode : (Instr.showstr 0 (List.replicate 255 0x41)).wf = true ∧ Instr.clear.wf = true := by
  decide +kernel

theorem witness_EncodeOfDecode : decode [0x02, 0x00, 0x00] = .cmd (.showstr 0 []) := by decide

/-- A packet in each case of R74, at the length next to the right one. -/
theorem witness_MalformedPacketsIgnored :
    malformed [] ∧ malformed [0x15] ∧ malformed [0x04, 0x00] ∧ malformed [0x01] ∧ malformed [0x11, 0x01] ∧
    malformed [0x03, 0x00, 0x01, 0x00, 0x00] ∧ malformed [0x02, 0x00] ∧ malformed [0x02, 0x00, 0x01] ∧
    malformed [0x05, 0x02] ∧ malformed [0x11, 0x02, 0x41] ∧ (offering (ready 39 .on) []).running = none := by
  refine ⟨.inl rfl, .inr ⟨_, _, rfl, ?_⟩, .inr ⟨_, _, rfl, ?_⟩, .inr ⟨_, _, rfl, ?_⟩, .inr ⟨_, _, rfl, ?_⟩,
    .inr ⟨_, _, rfl, ?_⟩, .inr ⟨_, _, rfl, ?_⟩, .inr ⟨_, _, rfl, ?_⟩, .inr ⟨_, _, rfl, ?_⟩, .inr ⟨_, _, rfl, ?_⟩, rfl⟩
    <;> decide

theorem witness_PacketOperandByteOrder :
    ([] : List Byte).length = (0x00 : Byte).toNat ∧ (List.replicate 255 (0x41 : Byte)).length = (0xFF : Byte).toNat := by
  decide +kernel

/-- Both sides of each bound of R76. -/
theorem witness_AssemblerPackets :
    assemble (.connect (-129)) = none ∧ assemble (.connect (-128)) = some [0x01, 0x80] ∧
    assemble (.connect 127) = some [0x01, 0x7F] ∧ assemble (.connect 128) = none ∧
    assemble (.sendData 255) = some [0x13, 0xFF] ∧ assemble (.sendData 256) = none ∧
    assemble (.setCursor 0 255) = some [0x14, 0x00, 0xFF] ∧ assemble (.setCursor (-1) 0) = none ∧
    assemble (.showNumber 2147483647 (.number 255)) = some [0x03, 0xFF, 0xFF, 0xFF, 0xFF, 0x7F] ∧
    assemble (.showNumber 2147483648 (.number 0)) = none ∧
    assemble (.showString ['a', 'ÿ'] (.number 0)) = some [0x02, 0x00, 0x02, 0x61, 0xFF] ∧
    assemble (.showString ['Ā'] (.number 0)) = none := by decide

theorem witness_PositionIsIdentity :
    positionHelper 0 = some 0 ∧ positionHelper 31 = some 31 ∧ positionHelper 32 = none ∧
      assemble (.showString [] (.position 31)) = some [0x02, 0x1F, 0x00] ∧
      assemble (.showString [] (.position 32)) = none ∧ assemble (.showString [] (.position (-1))) = none := by decide

theorem witness_StepRunsDecodedInstruction :
    (offering (ready 39 .on) [0x04]).running = none ∧ (offering (ready 39 .on) [0x04]).view = .operation ∧
      (offering (ready 39 .on) [0x04]).inputs = [.packet [0x04]] ∧ decode [0x04] = .cmd .clear := by decide

/-- Both clauses: an idle block in the event view, and a busy one with a packet offered. -/
theorem witness_BusyBlockHoldsOffPackets :
    (({ offering State.reset [0x01, 0x27] with view := .event } : State).running = none ∧
      decode [0x01, 0x27] = .cmd (.connect 39)) ∧
    (midConnect [.packet [0x04]]).busy = true ∧ (midConnect [.packet [0x04]]).inputs = [.packet [0x04]] := by decide +kernel

theorem witness_EventViewRefinesOperationView :
    (Instr.connect 39).wf = true ∧ State.reset.running = none ∧
      (after (exec (.connect 39) State.reset)).map (fun t => t.trace.length) = some 400 := by decide +kernel

/-- The deepest nesting: seven active rules at the first event of CLEAR's cursor set inside CONNECT. -/
theorem witness_SequencerPosition :
    (((State.reset.accept Params.spec (.connect 39)).ticks Params.spec 60).running).map
      (fun o => (o.opc, o.emitted, o.frames.length)) = some (0x01, 60, 7) := by decide +kernel

/-- An idle state, and one in the middle of CONNECT. -/
theorem witness_StepKeepsInvariant :
    (ready 39 .off).Inv = true ∧ after (step (ready 39 .off)) = some (ready 39 .off) ∧
      (midConnect []).Inv = true ∧ (after (step (midConnect []))).isSome = true := by decide +kernel

theorem witness_OnlyResetUnsetsAddress :
    (ready 39 .on).busAddr ≠ none ∧
      (after (step { ready 39 .on with inputs := [.reset 2] })).map State.busAddr = some none := by decide

/-- Both values of PHASE between operations. -/
theorem witness_SessionRegistersBetweenOperations :
    State.reset.Inv = true ∧ State.reset.busy = false ∧ (ready 39 .on).Inv = true ∧ (ready 39 .on).busy = false := by decide

end Sys2Proof.Tests
end

/-! SUPPORT. Proofs of the family 10_state: the closed form of every operation, the bits of the expander byte no
operation but WRNIB chooses, the silence of the block without an address, and the registers at rest. -/

namespace Sys2Proof.Machine

open Sys2Proof.Claims

/-! ### Every operation in closed form -/

/-- SETCUR's command as the sum of two bytes (rules R66 and R121). -/
theorem cursorCommand_byte (line column : Byte) :
    BitVec.ofNat 8 (cursorCommand line.toNat column.toNat) = (if line = 0 then 0x80 else 0xC0) + column := by
  have zero_iff : line.toNat = 0 ↔ line = 0 := (BitVec.toNat_eq (x := line) (y := 0)).symm
  rw [cursorCommand, BitVec.ofNat_add, BitVec.ofNat_toNat, BitVec.setWidth_eq]
  by_cases h : line = 0
  · rw [if_pos (zero_iff.2 h), if_pos h]; rfl
  · rw [if_neg (mt zero_iff.1 h), if_neg h]; rfl

/-- CONNECT in one line (rules R110 and R112). -/
theorem connect_eq {c : Config} (hc : c.stopBeforeWrap = true) (addr : Byte) (s : State) :
    connect c addr s =
      (registersAfter (.connect addr) s).extend (traceOf c (.connect addr) s.busAddr s.bl) := by
  by_cases h : addr.toInt < 0
  · simp [connect, (addressNegative_iff addr).2 h, registersAfter, traceOf, h]
  · have hn : addressNegative addr = false := by simpa using mt (addressNegative_iff addr).1 h
    simp [connect, hn, registersAfter, traceOf, h, handshake_eq hc, addressField]

/-- What an operation does: it writes the registers of its rule and appends the events of its rule (rule R10). -/
theorem exec_eq (i : Instr) (s : State) :
    exec i s = .next ((registersAfter i s).extend (traceOf Params.spec i s.busAddr s.bl)) := by
  cases i with
  | connect addr => exact congrArg Host.Outcome.next (connect_eq rfl addr s)
  | showstr pos text => exact congrArg Host.Outcome.next (showStr_eq rfl text pos.toNat s)
  | shownum pos v => exact congrArg Host.Outcome.next (showStr_eq rfl (decimalString v.toInt) pos.toNat s)
  | clear => exact congrArg Host.Outcome.next (clearAll_eq rfl s)
  | setbl b => exact congrArg Host.Outcome.next (setBacklight_eq rfl b s)
  | wrnib v => exact congrArg Host.Outcome.next (wrnib_eq v s)
  | send rs p => exact congrArg Host.Outcome.next (send_byte rs p s)
  | sendcmd p => exact congrArg Host.Outcome.next (send_byte .command p s)
  | senddat p => exact congrArg Host.Outcome.next (send_byte .data p s)
  | setcur line column =>
    rw [traceOf, ← cursorCommand_byte]
    exact congrArg Host.Outcome.next (setCur_eq line.toNat column.toNat s)

@[simp] theorem registersAfter_trace (i : Instr) (s : State) : (registersAfter i s).trace = s.trace := by
  cases i with
  | connect addr => by_cases h : addr.toInt < 0 <;> simp [registersAfter, h]
  | _ => rfl

/-! ### The writes of a trace -/

/-- Every bus write of a trace has the property `P`. -/
def EveryWrite (P : BusAddress × Byte → Prop) (evs : List Event) : Prop := ∀ w ∈ busWrites evs, P w

section
variable {P : BusAddress × Byte → Prop}

@[simp] theorem everyWrite_nil : EveryWrite P [] := by simp [EveryWrite]

@[simp] theorem everyWrite_w (a : BusAddress) (v : Byte) (evs : List Event) :
    EveryWrite P (.w a v :: evs) ↔ P (a, v) ∧ EveryWrite P evs := by simp [EveryWrite]

@[simp] theorem everyWrite_dus (n : Nat) (evs : List Event) : EveryWrite P (.dus n :: evs) ↔ EveryWrite P evs := by
  simp [EveryWrite]

@[simp] theorem everyWrite_dms (n : Nat) (evs : List Event) : EveryWrite P (.dms n :: evs) ↔ EveryWrite P evs := by
  simp [EveryWrite]

@[simp] theorem everyWrite_append (xs ys : List Event) :
    EveryWrite P (xs ++ ys) ↔ EveryWrite P xs ∧ EveryWrite P ys := by
  simp [EveryWrite, or_imp, forall_and]

theorem everyWrite_flatMap {α : Type} {f : α → List Event} (h : ∀ x, EveryWrite P (f x)) (xs : List α) :
    EveryWrite P (xs.flatMap f) := by
  induction xs with
  | nil => simp
  | cons x xs ih => simp [h x, ih]

/-- A nibble transmission writes its byte with the enable bit clear and with it set (rule R90). -/
@[simp] theorem everyWrite_nibbleEvents (a : BusAddress) (v : Byte) :
    EveryWrite P (nibbleEvents a v) ↔ P (a, v &&& 0xFB) ∧ P (a, v ||| 0x04) := by
  simp only [nibbleEvents, everyWrite_w, everyWrite_dus, everyWrite_nil]
  tauto

end

/-! ### The bits of the expander byte that no payload reaches -/

/-- Bit 1 (RW) is 0 and bit 3 is the backlight bit (rules R32, R61 and R62). -/
def HasFixedBits (bl : Backlight) (v : Byte) : Prop := v[1] = false ∧ v[3] = decide (bl = .on)

/-- A nibble transmission keeps bits 1 and 3 of its byte: only the enable bit moves. -/
theorem nibbleEvents_fixedBits (a : BusAddress) {bl : Backlight} {v : Byte} (h : HasFixedBits bl v) :
    EveryWrite (fun w => HasFixedBits bl w.2) (nibbleEvents a v) := by
  obtain ⟨hrw, hbl⟩ := h
  simp [HasFixedBits, hrw, hbl]

/-- A nibble in bus position, with the backlight bit and the register-select bit (rule R62). -/
theorem composed_fixedBits {n : Byte} (h1 : n[1] = false) (h3 : n[3] = false) (bl : Backlight) (rs : RegSel) :
    HasFixedBits bl (n ||| (if bl = .on then 0x08 else 0x00) ||| (if rs = .data then 0x01 else 0x00)) := by
  cases bl <;> cases rs <;> simp [HasFixedBits, h1, h3]

theorem frameEvents_fixedBits (a : BusAddress) (bl : Backlight) (f : LogicalWrite) :
    EveryWrite (fun w => HasFixedBits bl w.2) (frameEvents a bl f) :=
  (everyWrite_append _ _).2
    ⟨nibbleEvents_fixedBits a (composed_fixedBits (by simp) (by simp) bl f.1),
      nibbleEvents_fixedBits a (composed_fixedBits (by simp) (by simp) bl f.1)⟩

theorem framesEvents_fixedBits (a : BusAddress) (bl : Backlight) (fs : List LogicalWrite) :
    EveryWrite (fun w => HasFixedBits bl w.2) (framesEvents a bl fs) :=
  everyWrite_flatMap (frameEvents_fixedBits a bl) fs

theorem guardedFrames_fixedBits (a : Option BusAddress) (bl : Backlight) (fs : List LogicalWrite) :
    EveryWrite (fun w => HasFixedBits bl w.2) (guardedFrames a bl fs) := by
  cases a with
  | none => exact everyWrite_nil
  | some a => exact framesEvents_fixedBits a bl fs

/-- CONNECT's init nibbles carry the backlight bit as a frame's do (rule R113). -/
theorem initNibble_fixedBits {n : Byte} (h1 : n[1] = false) (h3 : n[3] = false) (bl : Backlight) :
    HasFixedBits bl (n ||| initBacklight Params.spec bl) := by
  cases bl <;> simp [HasFixedBits, initBacklight, Params.spec, h1, h3]

theorem phaseEvents_fixedBits (a : BusAddress) (bl : Backlight) (ph : Phase) :
    EveryWrite (fun w => HasFixedBits bl w.2) (phaseEvents Params.spec a bl ph) := by
  cases ph with
  | unconnected | ready => exact everyWrite_nil
  | powerSettle => cases bl <;> simp [phaseEvents, HasFixedBits]
  | forceReset =>
    have nibble := nibbleEvents_fixedBits a (initNibble_fixedBits (n := 0x30) rfl rfl bl)
    simp only [phaseEvents, everyWrite_append, nibble, everyWrite_dus, everyWrite_nil, and_self]
  | fourBitSelect =>
    have nibble := nibbleEvents_fixedBits a (initNibble_fixedBits (n := 0x20) rfl rfl bl)
    simp only [phaseEvents, everyWrite_append, nibble, everyWrite_dus, everyWrite_nil, and_self]
  | functionSet | displayControl | entryModeSet =>
    simp only [phaseEvents, everyWrite_append, frameEvents_fixedBits, everyWrite_dus, everyWrite_nil, and_self]
  | cleared => exact framesEvents_fixedBits a bl _

/-- Every byte an operation other than WRNIB writes has bit 1 clear and, in bit 3, the backlight the operation ends
with (rules R32 and R104). -/
theorem traceOf_fixedBits (i : Instr) (s : State) (hi : ∀ v, i ≠ .wrnib v) :
    EveryWrite (fun w => HasFixedBits (registersAfter i s).bl w.2) (traceOf Params.spec i s.busAddr s.bl) := by
  cases i with
  | wrnib v => exact absurd rfl (hi v)
  | connect addr =>
    by_cases h : addr.toInt < 0
    · simp [traceOf, h]
    · have sent := everyWrite_flatMap (phaseEvents_fixedBits (addr.truncate 7) s.bl) connectPhases
      simpa [traceOf, registersAfter, h, connectEvents] using sent
  | showstr _ _ | shownum _ _ | clear | setbl _ | send _ _ | sendcmd _ | senddat _ | setcur _ _ =>
    exact guardedFrames_fixedBits _ _ _

/-- WRNIB passes bit 1 of its operand through to every byte it writes (rule R32). -/
theorem traceOf_wrnib_bitOne (v : Byte) (a : Option BusAddress) (bl : Backlight) :
    EveryWrite (fun w => w.2[1] = v[1]) (traceOf Params.spec (.wrnib v) a bl) := by
  cases a with
  | none => exact everyWrite_nil
  | some a => simp [traceOf]

/-- Settles O14: bit 1 is no bit of a nibble, of the backlight or of the register-select, and WRNIB moves only bit 2. -/
theorem bitOneOnlyFromHostWrnib : Obligations.BitOneOnlyFromHostWrnib := by
  intro i s
  refine ⟨_, traceOf Params.spec i s.busAddr s.bl, exec_eq i s, by simp, ?_⟩
  cases i with
  | wrnib v => exact traceOf_wrnib_bitOne v s.busAddr s.bl
  | _ => exact fun w hw => (traceOf_fixedBits _ s (fun _ => by simp) w hw).1

/-! ### While BUSADDR is unset -/

/-- The guard of rule R91 silences every operation but a CONNECT that binds an address (rule R31). -/
theorem traceOf_unset {i : Instr} (hi : ∀ addr, i = .connect addr → addr.toInt < 0) (c : Config) (bl : Backlight) :
    traceOf c i none bl = [] := by
  cases i with
  | connect addr => simp [traceOf, hi addr rfl]
  | _ => rfl

/-- Settles O33: no operation but SETBL writes a register here, and none appends an event. -/
theorem silentWhileAddressUnset : Obligations.SilentWhileAddressUnset := by
  intro i s hs hi
  rw [exec_eq, hs, traceOf_unset hi, extend_nil]
  cases i with
  | connect addr => simp [registersAfter, hi addr rfl]
  | _ => rfl

/-! ### At rest -/

/-- An idle block that is offered nothing waits (rule R29). -/
theorem step_of_idle_no_input {s : State} (hr : s.running = none) (hi : s.inputs = []) : step s = .next s := by
  simp [step, State.fetch, State.busy, hr, fetchIdle, hi]

/-- Settles O1: each register of the reset state, and the wait for the first packet. -/
theorem resetStateOfEveryRegister : Obligations.ResetStateOfEveryRegister :=
  ⟨rfl, rfl, rfl, rfl, rfl, rfl, rfl, rfl, rfl, rfl, step_of_idle_no_input rfl rfl⟩

theorem busy_eq_false_iff {s : State} : s.busy = false ↔ s.running = none := by
  simp [State.busy]

/-- Between operations the invariant is rule R30. -/
theorem inv_of_idle {s : State} (hr : s.running = none) : s.Inv = s.sessionConsistent := by
  simp [State.Inv, hr]

theorem sessionConsistent_iff {s : State} :
    s.sessionConsistent = true ↔
      (s.phase = .unconnected ∧ s.busAddr = none) ∨ (s.phase = .ready ∧ s.busAddr ≠ none) := by
  simp [State.sessionConsistent, Option.isSome_iff_ne_none]

/-- Settles O57: the two cases of rule R30. -/
theorem sessionRegistersBetweenOperations : Obligations.SessionRegistersBetweenOperations := by
  intro s hinv hidle
  rw [inv_of_idle (busy_eq_false_iff.1 hidle), sessionConsistent_iff] at hinv
  obtain ⟨hp, ha⟩ | ⟨hp, ha⟩ := hinv
  · simp [hp, ha]
  · simp [hp, ha]

end Sys2Proof.Machine

/-! SUPPORT. Proofs of the family 20_memory: the transport's answers are read by nothing, and the order of a packet's
operand bytes. -/

namespace Sys2Proof.Machine

open Sys2Proof.Claims

/-! ### Two runs of the sequencer side by side -/

section
variable {c : Config} {R : State → State → Prop} (keeps : ∀ s t, R s t → R (s.advance c) (t.advance c))
  (settles : ∀ s t, R s t → s.settled c = t.settled c) {s t : State}
include keeps settles

/-- Settling keeps every relation that an advance keeps and that tells no settled state from an unsettled one. -/
theorem settle_related (h : R s t) : R (s.settle c) (t.settle c) := by
  unfold State.settle
  generalize moveBound = fuel
  induction fuel generalizing s t with
  | zero => exact h
  | succ fuel ih =>
    simp only [settleWithin, settles s t h]
    split
    · exact h
    · exact ih (keeps s t h)

/-- One event keeps every such relation. -/
theorem tick_related (h : R s t) : R (s.tick c) (t.tick c) := settle_related keeps settles (keeps s t h)

end

/-! ### The answers of the transport -/

/-- `t` is `s` with other answers of the transport still to come (log entry 5). -/
def DiffersInAnswers (s t : State) : Prop := ∃ answers, t = { s with answers := answers }

/-- A move takes at most the first answer, and only to discard it (rule R43). -/
theorem applyMove_differsInAnswers (o : Operation) (fs : List Frame) (m : Move) {s t : State}
    (h : DiffersInAnswers s t) : DiffersInAnswers (applyMove s o fs m) (applyMove t o fs m) := by
  obtain ⟨answers, rfl⟩ := h
  cases m with
  | emit e f =>
    cases e with
    | w a v => exact ⟨answers.tail, rfl⟩
    | dus n | dms n => exact ⟨answers, rfl⟩
  | _ => exact ⟨answers, rfl⟩

theorem advance_differsInAnswers (c : Config) (s t : State) (h : DiffersInAnswers s t) :
    DiffersInAnswers (s.advance c) (t.advance c) := by
  obtain ⟨hrun, haddr, hbl⟩ : t.running = s.running ∧ t.busAddr = s.busAddr ∧ t.bl = s.bl := by
    obtain ⟨answers, rfl⟩ := h
    exact ⟨rfl, rfl, rfl⟩
  cases hr : s.running with
  | none => rwa [advance_of_none hr, advance_of_none (hrun.trans hr)]
  | some o =>
    cases hf : o.frames with
    | nil =>
      obtain ⟨answers, rfl⟩ := h
      rw [advance_of_nil hr hf, advance_of_nil (hrun.trans hr) hf]
      exact ⟨answers, rfl⟩
    | cons f fs =>
      rw [advance_of_frames hr hf, advance_of_frames (hrun.trans hr) hf, haddr, hbl]
      exact applyMove_differsInAnswers o fs _ h

/-- Whether the block stands before an event does not depend on the answers. -/
theorem settled_differsInAnswers (c : Config) (s t : State) (h : DiffersInAnswers s t) :
    s.settled c = t.settled c := by
  obtain ⟨answers, rfl⟩ := h
  rfl

theorem tick_differsInAnswers (c : Config) {s t : State} (h : DiffersInAnswers s t) :
    DiffersInAnswers (s.tick c) (t.tick c) :=
  tick_related (advance_differsInAnswers c) (settled_differsInAnswers c) h

/-- The registers an operation writes do not depend on the answers, and it keeps the answers until its events. -/
theorem registersAfter_answers (i : Instr) (s : State) (answers : List BusAnswer) :
    registersAfter i { s with answers := answers } = { registersAfter i s with answers := answers } := by
  cases i with
  | connect addr =>
    simp only [registersAfter]
    split <;> rfl
  | _ => rfl

/-- Settles O35: an operation is its closed form, which reads BUSADDR and BL alone, and an event is moves and
settling, none of which reads an answer. -/
theorem transportAnswersUnread : Obligations.TransportAnswersUnread := by
  intro i s answers
  refine ⟨_, traceOf Params.spec i s.busAddr s.bl, exec_eq i s, by simp, ?_, tick_differsInAnswers _ ⟨answers, rfl⟩⟩
  rw [exec_eq, registersAfter_answers]
  rfl

/-! ### The operand bytes of a packet -/

/-- Four bytes stay below 2^32, so the value of rule R56 is their little-endian sum in two's complement. -/
theorem word32OfBytes_toInt (v0 v1 v2 v3 : Byte) :
    (word32OfBytes v0 v1 v2 v3).toInt =
      Int.bmod (v0.toNat + 256 * v1.toNat + 65536 * v2.toNat + 16777216 * v3.toNat) (2 ^ 32) := by
  rw [word32OfBytes, BitVec.toInt_ofNat']
  push_cast
  rfl

theorem decode_shownum (pos v0 v1 v2 v3 : Byte) :
    decode [0x03, pos, v0, v1, v2, v3] = .cmd (.shownum pos (word32OfBytes v0 v1 v2 v3)) :=
  decode_code_cons .shownum _

theorem decode_showstr {len : Byte} {text : List Byte} (h : text.length = len.toNat) (pos : Byte) :
    decode (0x02 :: pos :: len :: text) = .cmd (.showstr pos text) :=
  (decode_code_cons .showstr _).trans (if_pos h)

/-- Settles O45: the two packets with operands longer than a byte, read byte by byte. -/
theorem packetOperandByteOrder : Obligations.PacketOperandByteOrder :=
  ⟨fun pos b2 b3 b4 b5 => ⟨_, decode_shownum pos b2 b3 b4 b5, word32OfBytes_toInt b2 b3 b4 b5⟩,
    fun pos _ _ hlen => decode_showstr hlen pos⟩

end Sys2Proof.Machine

/-! SUPPORT. Proofs of the family 30_encoding: the nibble split of a payload, the packets the decoder ignores, and the
public surface. -/

namespace Sys2Proof.Machine

open Sys2Proof.Claims

/-! ### The nibble split -/

/-- The high nibble in bus position is the payload's byte under the mask of rule R63. -/
theorem hiNibble_eq (p : Nat) : hiNibble p = BitVec.ofNat 8 p &&& 0xF0 := BitVec.ofNat_and

/-- The low nibble in bus position is the payload's byte moved up by a nibble (rule R63). -/
theorem loNibble_eq (p : Nat) : loNibble p = BitVec.ofNat 8 p <<< 4 := by
  rw [← loNibble_toNat, BitVec.toNat_ofNat, loNibble_mod]

/-- The two nibbles of a byte, the low one moved back down, are the byte. -/
theorem nibbles_join (b : Byte) : b &&& (0xF0 : Byte) ||| ((b <<< 4) >>> 4) = b := by
  revert b
  decide

/-- Settles O7: both nibbles are functions of the payload's low byte, whose bits they partition. -/
theorem nibbleSplitUsesLowByte : Obligations.NibbleSplitUsesLowByte := by
  intro p
  refine ⟨hiNibble_eq p, loNibble_eq p, (hiNibble_mod p).symm, (loNibble_mod p).symm, ?_⟩
  rw [hiNibble_eq, loNibble_eq, nibbles_join]

/-! ### Malformed packets -/

/-- The reserved opcodes are the bytes outside the table of rule R72. -/
theorem op_ofByte_eq_none_iff (b : Byte) :
    Op.ofByte b = none ↔ b ∉ [0x01, 0x02, 0x03, 0x04, 0x05, 0x10, 0x11, 0x12, 0x13, 0x14] := by
  simp [Op.ofByte, Op.all, Op.code, eq_comm (b := b)]

theorem backlight_ofByte_eq_none_iff (b : Byte) : Backlight.ofByte b = none ↔ b ∉ [0x00, 0x01] := by
  by_cases off : b = 0#8 <;> by_cases on : b = 1#8 <;> simp [Backlight.ofByte, off, on]

theorem regSel_ofByte_eq_none_iff (b : Byte) : RegSel.ofByte b = none ↔ b ∉ [0x00, 0x01] := by
  by_cases command : b = 0#8 <;> by_cases data : b = 1#8 <;> simp [RegSel.ofByte, command, data]

/-- Cases (c) to (e) of rule R74 for the operand bytes of an opcode that is in the map: a length other than that of
rule R73, a bad state byte of SETBL, or a bad rs byte of SEND. -/
def BadOperands (o : Op) (operands : List Byte) : Prop :=
  operands.length + 1 ≠ packetLength o (operands.getD 1 0) ∨
    o = .setbl ∧ operands.length = 1 ∧ Backlight.ofByte (operands.getD 0 0) = none ∨
    o = .send ∧ operands.length = 2 ∧ RegSel.ofByte (operands.getD 0 0) = none

/-- Behind an opcode of the map, a packet is malformed exactly by its operand bytes. -/
theorem malformed_code_cons_iff (o : Op) (operands : List Byte) :
    malformed (o.code :: operands) ↔ BadOperands o operands := by
  cases o with
  | showstr =>
    have too_short : operands.length + 1 < 3 → operands.length + 1 ≠ 3 + (operands.getD 1 0).toNat := by omega
    simpa [malformed, BadOperands, Op.code, packetLength] using too_short
  | _ =>
    simp [malformed, BadOperands, Op.code, packetLength, backlight_ofByte_eq_none_iff, regSel_ofByte_eq_none_iff]

/-- The decoder rejects exactly the bad operand bytes. -/
theorem decodeOperands_ignored_iff (o : Op) (operands : List Byte) :
    (∃ why, decodeOperands o operands = .ignored why) ↔ BadOperands o operands := by
  cases o with
  | clear => rcases operands with _ | ⟨_, _⟩ <;> simp [decodeOperands, BadOperands, packetLength]
  | connect | wrnib | sendcmd | senddat =>
    rcases operands with _ | ⟨_, _ | ⟨_, _⟩⟩ <;> simp [decodeOperands, BadOperands, packetLength]
  | setbl =>
    rcases operands with _ | ⟨b, _ | ⟨_, _⟩⟩
    case cons.nil => cases h : Backlight.ofByte b <;> simp [decodeOperands, BadOperands, packetLength, h]
    all_goals simp [decodeOperands, BadOperands, packetLength]
  | setcur => rcases operands with _ | ⟨_, _ | ⟨_, _ | ⟨_, _⟩⟩⟩ <;>
      simp [decodeOperands, BadOperands, packetLength]
  | send =>
    rcases operands with _ | ⟨b, _ | ⟨_, _ | ⟨_, _⟩⟩⟩
    case cons.cons.nil => cases h : RegSel.ofByte b <;> simp [decodeOperands, BadOperands, packetLength, h]
    all_goals simp [decodeOperands, BadOperands, packetLength]
  | shownum =>
    rcases operands with _ | ⟨_, _ | ⟨_, _ | ⟨_, _ | ⟨_, _ | ⟨_, _ | ⟨_, _⟩⟩⟩⟩⟩⟩ <;>
      simp [decodeOperands, BadOperands, packetLength]
  | showstr =>
    rcases operands with _ | ⟨_, _ | ⟨len, text⟩⟩
    case cons.cons =>
      by_cases h : text.length = len.toNat <;> simp [decodeOperands, BadOperands, packetLength, Nat.add_comm 3, h]
    all_goals simp [decodeOperands, BadOperands, packetLength]

/-- The decoder ignores exactly the malformed packets (rule R74). -/
theorem decode_ignored_iff_malformed (bs : List Byte) : (∃ why, decode bs = .ignored why) ↔ malformed bs := by
  cases bs with
  | nil => exact iff_of_true ⟨_, rfl⟩ (.inl rfl)
  | cons opc operands =>
    cases h : Op.ofByte opc with
    | none =>
      exact iff_of_true ⟨.reservedOpcode opc, by simp [decode, h]⟩
        (.inr ⟨opc, operands, rfl, .inl ((op_ofByte_eq_none_iff opc).1 h)⟩)
    | some o =>
      rw [← op_code_of_ofByte h, decode_code_cons, decodeOperands_ignored_iff, malformed_code_cons_iff]

/-- An idle block takes a malformed packet, and that is all (rule R74). -/
theorem step_of_malformed {bs : List Byte} {s : State} {rest : List HostInput} (hm : malformed bs)
    (hr : s.running = none) (hi : s.inputs = .packet bs :: rest) : step s = .next (s.setInputs rest) := by
  obtain ⟨why, hd⟩ := (decode_ignored_iff_malformed bs).2 hm
  simp [step, State.fetch, busy_eq_false_iff.2 hr, fetchIdle, hi, takePacket, hd]

/-- Settles O44: the decoder ignores the cases (a) to (e) of rule R74, and the idle block drops what it ignores. -/
theorem malformedPacketsIgnored : Obligations.MalformedPacketsIgnored :=
  ⟨decode_ignored_iff_malformed, fun _ _ _ => step_of_malformed⟩

/-! ### The public surface -/

/-- Settles O47: the five public operations each have their own disjunct, and the other five have none. -/
theorem publicSurfaceMembers : Obligations.PublicSurfaceMembers := by
  intro i
  cases i with
  | connect _ | showstr _ _ | shownum _ _ | clear | setbl _ => exact iff_of_true rfl (by simp)
  | wrnib _ | send _ _ | sendcmd _ | senddat _ | setcur _ _ => exact iff_of_false Bool.false_ne_true (by simp)

end Sys2Proof.Machine

/-! SUPPORT. Proofs of the family 40_nibble_transport: the bits of a nibble transmission's bytes, and the number of bus
writes of every operation modulo 3. -/

namespace Sys2Proof.Machine

open Sys2Proof.Claims

/-! ### The bytes of a nibble transmission -/

/-- Clearing the enable bit moves no other bit (rules R62 and R90). -/
theorem getLsbD_enClear (v : Byte) {b : Nat} (hb : b < 8) (h2 : b ≠ 2) : (v &&& 0xFB).getLsbD b = v.getLsbD b := by
  have mask : ∀ b < 8, b ≠ 2 → (0xFB : Byte).getLsbD b = true := by decide
  rw [BitVec.getLsbD_and, mask b hb h2, Bool.and_true]

/-- Setting the enable bit moves no other bit (rules R62 and R90). -/
theorem getLsbD_enSet (v : Byte) {b : Nat} (hb : b < 8) (h2 : b ≠ 2) : (v ||| 0x04).getLsbD b = v.getLsbD b := by
  have mask : ∀ b < 8, b ≠ 2 → (0x04 : Byte).getLsbD b = false := by decide
  rw [BitVec.getLsbD_or, mask b hb h2, Bool.or_false]

section
variable {v v' : Byte} (h : ∀ b < 8, b ≠ 2 → v.getLsbD b = v'.getLsbD b)
include h

/-- A nibble transmission is made of the bits of its byte other than the enable bit (rule R90). -/
theorem nibbleEvents_congr (a : BusAddress) : nibbleEvents a v = nibbleEvents a v' := by
  have low : v &&& 0xFB = v' &&& 0xFB := BitVec.eq_of_getLsbD_eq fun b hb => by
    by_cases h2 : b = 2
    · simp [h2]
    · rw [getLsbD_enClear v hb h2, getLsbD_enClear v' hb h2, h b hb h2]
  have high : v ||| 0x04 = v' ||| 0x04 := BitVec.eq_of_getLsbD_eq fun b hb => by
    by_cases h2 : b = 2
    · simp [h2]
    · rw [getLsbD_enSet v hb h2, getLsbD_enSet v' hb h2, h b hb h2]
  rw [nibbleEvents, low, high, nibbleEvents]

/-- WRNIB of two bytes that differ at most in the enable bit is one operation (rule R90). -/
theorem exec_wrnib_congr (s : State) : exec (.wrnib v) s = exec (.wrnib v') s := by
  rw [exec_eq, exec_eq]
  cases ha : s.busAddr with
  | none => rfl
  | some a => simp only [traceOf, nibbleEvents_congr h a, registersAfter]

end

/-- Settles O5: the closed form of WRNIB, in which the enable bit of the operand does not show. -/
theorem wrnibStrobesExpanderByte : Obligations.WrnibStrobesExpanderByte := fun v s =>
  ⟨rfl, exec_eq (.wrnib v) s, exec_wrnib_congr (fun _ => getLsbD_enClear v) s,
    exec_wrnib_congr (fun _ => getLsbD_enSet v) s⟩

/-! ### Bus writes in threes -/

@[simp] theorem length_busWrites_nibbleEvents (a : BusAddress) (v : Byte) :
    (busWrites (nibbleEvents a v)).length = 3 := rfl

/-- A frame is two nibble transmissions (rule R103). -/
@[simp] theorem length_busWrites_frameEvents (a : BusAddress) (bl : Backlight) (f : LogicalWrite) :
    (busWrites (frameEvents a bl f)).length = 6 := rfl

@[simp] theorem length_busWrites_framesEvents (a : BusAddress) (bl : Backlight) (fs : List LogicalWrite) :
    (busWrites (framesEvents a bl fs)).length = 6 * fs.length := by
  simp only [framesEvents]
  induction fs with
  | nil => rfl
  | cons f fs ih => simp +arith [ih]

theorem length_busWrites_guardedFrames_mod (a : Option BusAddress) (bl : Backlight) (fs : List LogicalWrite) :
    (busWrites (guardedFrames a bl fs)).length % 3 = 0 := by
  cases a with
  | none => rfl
  | some a =>
    rw [guardedFrames, length_busWrites_framesEvents]
    omega

/-- The bus writes of CONNECT: PowerSettle's raw byte, four init nibbles, three configuration commands and the frames
of CLEAR (rule R110). -/
theorem length_busWrites_connectEvents (c : Config) (a : BusAddress) (bl : Backlight) :
    (busWrites (connectEvents c a bl)).length =
      1 + 4 * 3 + 3 * 6 + 6 * (textFrames (List.replicate 32 c.charSpace) 0).length := by
  simp +arith [connectEvents, connectPhases, phaseEvents]

/-- CONNECT's raw backlight byte is the one bus write outside a nibble transmission (rule R92). -/
theorem length_busWrites_traceOf_mod (c : Config) (i : Instr) (a : Option BusAddress) (bl : Backlight) :
    (busWrites (traceOf c i a bl)).length % 3 =
      match i with
      | .connect addr => if addr.toInt < 0 then 0 else 1
      | _ => 0 := by
  cases i with
  | connect addr =>
    by_cases h : addr.toInt < 0
    · simp [traceOf, h]
    · simp only [traceOf, h, if_false, length_busWrites_connectEvents]
      omega
  | wrnib v =>
    cases a with
    | none => rfl
    | some a => simp [traceOf]
  | showstr _ _ | shownum _ _ | clear | setbl _ | send _ _ | sendcmd _ | senddat _ | setcur _ _ =>
    exact length_busWrites_guardedFrames_mod _ _ _

/-- Settles O6: the two bytes of WRNIB's closed form bit by bit, and the writes of every operation's closed form. -/
theorem nibbleTransmissionShape : Obligations.NibbleTransmissionShape := by
  constructor
  · intro v s a ha
    refine ⟨_, v &&& 0xFB, v ||| 0x04, exec_eq (.wrnib v) s, ?_, by simp, by simp, ?_⟩
    · simp [traceOf, ha, nibbleEvents]
    · exact fun b hb h2 => ⟨getLsbD_enClear v hb h2, getLsbD_enSet v hb h2⟩
  · intro i s
    exact ⟨_, traceOf Params.spec i s.busAddr s.bl, exec_eq i s, by simp, length_busWrites_traceOf_mod _ i _ _⟩

end Sys2Proof.Machine

/-! SUPPORT. Proofs of the family 41_framer: the two nibble transmissions of a frame, the framings by register-select,
and the backlight bit of every byte written. -/

namespace Sys2Proof.Machine

open Sys2Proof.Claims

/-! ### The backlight bit -/

/-- Settles O13: bit 3 is one of the bits of the expander byte that no payload reaches, and appending events leaves
BL alone. -/
theorem backlightBitOnEveryWrite : Obligations.BacklightBitOnEveryWrite := fun i s hi =>
  ⟨_, traceOf Params.spec i s.busAddr s.bl, exec_eq i s, by simp, fun w hw => (traceOf_fixedBits i s hi w hw).2⟩

/-! ### The framings -/

/-- SEND in one line (rule R100). -/
theorem exec_send (rs : RegSel) (p : Byte) (s : State) :
    exec (.send rs p) s = .next (s.extend (guardedFrames s.busAddr s.bl [(rs, p)])) := exec_eq (.send rs p) s

/-- SEND of a byte is SEND of every wider payload with that low byte (rules R63 and R100). -/
theorem exec_send_ofNat (rs : RegSel) (wide : Nat) (s : State) :
    exec (.send rs (BitVec.ofNat 8 wide)) s = .next (send rs wide s) := by
  rw [exec_send, send_eq]

theorem exec_sendcmd (p : Byte) (s : State) : exec (.sendcmd p) s = exec (.send .command p) s := rfl

theorem exec_senddat (p : Byte) (s : State) : exec (.senddat p) s = exec (.send .data p) s := rfl

/-- The two ways to write a frame are one operation (rules R101 and R102). -/
theorem exec_framing {rs : RegSel} {p : Byte} {i : Instr}
    (hi : i ∈ [Instr.send rs p, if rs = .command then .sendcmd p else .senddat p]) (s : State) :
    exec i s = exec (.send rs p) s := by
  obtain rfl | rfl := List.mem_pair.1 hi
  · rfl
  · cases rs with
    | command => exact exec_sendcmd p s
    | data => exact exec_senddat p s

/-- Settles O10: SENDCMD's closed form is that of SEND. -/
theorem sendcmdIsCommandFraming : Obligations.SendcmdIsCommandFraming := fun p s =>
  ⟨rfl, _, exec_send .command p s, (exec_sendcmd p s).trans (exec_send .command p s)⟩

/-- Settles O11: SENDDAT's closed form is that of SEND, and the register-select has two constructors. -/
theorem senddatIsDataFraming : Obligations.SenddatIsDataFraming := by
  intro p s
  refine ⟨rfl, ⟨_, exec_send .data p s, (exec_senddat p s).trans (exec_send .data p s)⟩, fun rs => ?_⟩
  cases rs with
  | command => exact .inl rfl
  | data => exact .inr rfl

/-! ### The two nibble transmissions of a frame -/

/-- A composed byte is a nibble in bus position with the backlight and register-select bits (rule R62). -/
def composed (n : Byte) (bl : Backlight) (rs : RegSel) : Byte :=
  n ||| (if bl = .on then 0x08 else 0x00) ||| (if rs = .data then 0x01 else 0x00)

/-- The low nibble in bus position leaves nothing for the mask of rule R63 to clear. -/
theorem shiftLeft_four_and_nibMask (p : Byte) : (p <<< 4) &&& (0xF0 : Byte) = p <<< 4 := by
  revert p
  decide

/-- One frame, the high nibble first (rule R103). -/
theorem guardedFrames_some_singleton (a : BusAddress) (bl : Backlight) (rs : RegSel) (p : Byte) :
    guardedFrames (some a) bl [(rs, p)] =
      nibbleEvents a (composed (p &&& 0xF0) bl rs) ++
        nibbleEvents a (composed ((p <<< 4) &&& (0xF0 : Byte)) bl rs) := by
  rw [shiftLeft_four_and_nibMask]
  exact List.append_nil _

/-- The backlight and register-select bits lie below the nibble (rule R61). -/
theorem composed_extract_nibble (n : Byte) (bl : Backlight) (rs : RegSel) :
    (composed n bl rs).extractLsb' 4 4 = n.extractLsb' 4 4 := by
  cases bl <;> cases rs <;> simp [composed, BitVec.extractLsb'_or]

theorem extract_high_of_and_nibMask (p : Byte) : (p &&& 0xF0).extractLsb' 4 4 = p.extractLsb' 4 4 := by
  revert p
  decide

theorem extract_high_of_shiftLeft_four (p : Byte) : (p <<< 4).extractLsb' 4 4 = p.extractLsb' 0 4 := by
  revert p
  decide

/-- Two nibble transmissions cost what rule R103 says, whatever bytes they carry. -/
theorem costOf_two_nibbleEvents (a : BusAddress) (h l : Byte) :
    costOf (nibbleEvents a h ++ nibbleEvents a l) = ⟨10, 6, 2, 2, 0, 0, 0, 102⟩ := rfl

/-- Settles O9: the packet, the closed form with the address unset and set, and the wide payload. -/
theorem sendFramesHighNibbleFirst : Obligations.SendFramesHighNibbleFirst := by
  intro rs p s k r
  refine ⟨by cases rs <;> rfl, ?_, ?_⟩
  · rw [exec_send]
    cases s.busAddr with
    | none => rfl
    | some a =>
      rw [guardedFrames_some_singleton]
      rfl
  · rintro wide rfl
    exact exec_send_ofNat rs wide s

/-- Settles O12: the two composed bytes of the closed form carry the two nibbles of the payload. -/
theorem frameIsTwoTransmissions : Obligations.FrameIsTwoTransmissions := by
  intro rs p i s hi
  refine ⟨_, (exec_framing hi s).trans (exec_send rs p s), ?_⟩
  cases s.busAddr with
  | none => exact extend_nil s
  | some a =>
    refine ⟨_, _, by rw [guardedFrames_some_singleton], ?_, ?_, costOf_two_nibbleEvents a _ _⟩
    · rw [composed_extract_nibble, extract_high_of_and_nibMask]
    · rw [composed_extract_nibble, shiftLeft_four_and_nibMask, extract_high_of_shiftLeft_four]

end Sys2Proof.Machine

/-! SUPPORT. Proofs of the family 42_connect_init: the address test and the handshake of CONNECT, the trace of an
operation at every event of the event view, and the value of PHASE along the events of CONNECT. -/

namespace Sys2Proof.Machine

open Sys2Proof.Claims

/-! ### CONNECT as one operation -/

/-- Settles O15: the sign of the operand is its bit 7, and CONNECT's closed form is the state it starts in. -/
theorem negativeAddressIgnored : Obligations.NegativeAddressIgnored := by
  intro addr s
  constructor
  · have sign : addr.msb = addr[7] := BitVec.msb_eq_getMsbD_zero addr
    rw [← sign, BitVec.msb_eq_toInt, decide_eq_true_eq]
  · intro h
    simp [exec_eq, registersAfter, traceOf, h]

/-- The frames SHOWSTR sends of 32 blanks are those of CLEAR (rule R127). -/
theorem textFrames_blanks : textFrames (List.replicate 32 0x20) 0 = clearFrames := by decide

/-- The table of rule R111 with the spec's parameters is the pseudocode of rule R110. -/
theorem connectEvents_spec (a : BusAddress) (bl : Backlight) :
    connectEvents Params.spec a bl = handshakeEvents a bl := by
  have bit : initBacklight Params.spec bl = if bl = .on then 0x08 else 0x00 := by cases bl <;> rfl
  simp [connectEvents, connectPhases, phaseEvents, handshakeEvents, configEvents, bit, ← textFrames_blanks]
  rfl

/-- Settles O16: CONNECT's closed form, its events in the order of the pseudocode. -/
theorem connectReplaysHandshake : Obligations.ConnectReplaysHandshake := by
  intro addr s
  refine ⟨rfl, ?_⟩
  rw [exec_eq, ← connectEvents_spec]
  by_cases h : addr.toInt < 0
  · simp [registersAfter, traceOf, h]
  · simp [registersAfter, traceOf, h]

/-! ### The order of SHOWSTR's two tests does not show in CONNECT -/

/-- The parameter record with the spec's order of SHOWSTR's two tests (decision D7). -/
def specTestOrder (c : Config) : Config := { c with stopBeforeWrap := true }

/-- A text that ends inside the display never meets the stop test, so the order of the tests does not matter. -/
theorem showLoop_specTestOrder (c : Config) (pos : Nat) (text : List Byte) (i : Nat) (s : State)
    (h : pos + i + text.length ≤ 32) :
    showLoop (specTestOrder c) pos i text s = showLoop c pos i text s := by
  induction text generalizing i s with
  | nil => rfl
  | cons ch rest ih =>
    rw [List.length_cons] at h
    have inside : beyondDisplay (pos + i) = false := by
      simpa using mt (beyondDisplay_iff (pos + i)).1 (by omega)
    simp [showLoop, inside, fun s => ih (i + 1) s (by omega)]

theorem clearAll_specTestOrder (c : Config) (s : State) :
    clearAll (specTestOrder c) s = clearAll c s := by
  unfold clearAll showStr
  rw [show blankText (specTestOrder c) = blankText c from rfl,
    showLoop_specTestOrder c 0 (blankText c) 0 _ (by simp [blankText, Params.cells])]

/-- CONNECT sends no text but CLEAR's 32 blanks. -/
theorem connect_specTestOrder (c : Config) (addr : Byte) (s : State) :
    connect (specTestOrder c) addr s = connect c addr s := by
  simp only [connect, handshake, clearAll_specTestOrder]
  rfl

/-- Settles O17: CONNECT's closed form for the spec's order of tests, and with it for the other. -/
theorem handshakeForEveryParameter : Obligations.HandshakeForEveryParameter := by
  intro c addr s h
  constructor
  · rw [← connect_specTestOrder, connect_eq rfl]
    simp only [registersAfter, traceOf, if_neg (Int.not_lt.2 h)]
    rfl
  · rw [initBits_eq]
    simp [initBacklight]

/-! ### An operation at each of its events -/

/-- Moves only add to the trace. -/
theorem Reaches.log_suffix {c : Config} {s t : State} (h : Reaches c s t) : s.log <:+ t.log := by
  obtain ⟨n, rfl⟩ := h
  induction n generalizing s with
  | zero => exact List.suffix_rfl
  | succ n ih =>
    refine List.IsSuffix.trans ?_ (ih (s := s.advance c))
    obtain h | ⟨e, h⟩ := advance_log c s
    · rw [h]
    · rw [h]
      exact List.suffix_cons e s.log

/-- The moves are deterministic: of two states on one way, one leads to the other. -/
theorem Reaches.total {c : Config} {s t u : State} (ht : Reaches c s t) (hu : Reaches c s u) :
    Reaches c t u ∨ Reaches c u t := by
  obtain ⟨n, rfl⟩ := ht
  obtain ⟨m, rfl⟩ := hu
  rcases Nat.le_total n m with h | h
  · exact .inl ⟨m - n, by rw [← Function.iterate_add_apply, Nat.sub_add_cancel h]⟩
  · exact .inr ⟨n - m, by rw [← Function.iterate_add_apply, Nat.sub_add_cancel h]⟩

/-- Past a settled state lies either nothing or a longer trace. -/
theorem Reaches.eq_or_log_lt {c : Config} {u m : State} (h : Reaches c u m) (hu : u.settled c = true) :
    m = u ∨ u.log.length < m.log.length := by
  obtain ⟨n, rfl⟩ := h
  cases n with
  | zero => exact .inl rfl
  | succ n =>
    cases hr : u.running with
    | none => exact .inl (Function.iterate_fixed (advance_of_none hr) _)
    | some o =>
      have event : (u.advance c).log.length = u.log.length + 1 := by
        rw [← tick_log_length hu (by simp [hr]), State.tick, settle_log]
      have later := Reaches.log_length_le (c := c) (s := u.advance c) ⟨n, rfl⟩
      exact .inr (by rw [Function.iterate_succ_apply]; omega)

/-- A state with no more events than a settled one lies before it. -/
theorem Reaches.before_settled {c : Config} {s u m : State} (hm : Reaches c s m) (hu : Reaches c s u)
    (hs : u.settled c = true) (hlog : m.log.length ≤ u.log.length) : Reaches c m u := by
  obtain h | h := hm.total hu
  · exact h
  · obtain rfl | hlt := h.eq_or_log_lt hs
    · exact h
    · omega

/-- A state with more events than another lies after it. -/
theorem Reaches.after_of_log_lt {c : Config} {s u m : State} (hm : Reaches c s m) (hu : Reaches c s u)
    (hlog : u.log.length < m.log.length) : Reaches c u m :=
  (hu.total hm).resolve_right fun h => Nat.not_le_of_lt hlog h.log_length_le

theorem reaches_ticks (c : Config) (k : Nat) (s : State) : Reaches c s (s.ticks c k) := by
  induction k with
  | zero => exact .refl c s
  | succ k ih => exact ih.trans (reaches_tick c _)

/-- After every event the block stands before the next one or is idle. -/
theorem ticks_settled {c : Config} {s : State} (hok : s.SequencerOk c) (hs : s.settled c = true) (k : Nat) :
    (s.ticks c k).settled c = true ∧ (s.ticks c k).SequencerOk c := by
  induction k with
  | zero => exact ⟨hs, hok⟩
  | succ k ih => exact settle_settled (advance_ok ih.2).1

/-- While the operation lasts, `k` ticks are `k` events. -/
theorem ticks_log_length {c : Config} {s : State} (hok : s.SequencerOk c) (hs : s.settled c = true) {k : Nat}
    (busy : ∀ m < k, (s.ticks c m).busy = true) : (s.ticks c k).log.length = s.log.length + k := by
  induction k with
  | zero => rfl
  | succ k ih =>
    have inProgress : (s.ticks c k).running ≠ none := by
      simpa [State.busy, Option.isSome_iff_ne_none] using busy k (by omega)
    have event := tick_log_length (ticks_settled hok hs k).1 inProgress
    rw [ih fun m hm => busy m (by omega)] at event
    exact event

theorem accept_reaches (c : Config) (i : Instr) (s : State) :
    Reaches c (s.inFrames i.op.code 0 [Frame.start i]) (s.accept c i) := reaches_settle c _

section
variable {c : Config} {i : Instr} {s t : State} {evs : List Event} (fits : (Frame.start i).fits c = true)
  (completes : Completes c (Frame.start i) s t) (idle : t.running = none) (trace : t.trace = s.trace ++ evs)

include fits in
theorem accept_settled : (s.accept c i).settled c = true ∧ (s.accept c i).SequencerOk c :=
  settle_settled fun o ho => by
    obtain rfl : Operation.start i = o := Option.some.inj ho
    simp [framesConsistent, Operation.start, fits]

include completes idle in
theorem accept_reaches_end : Reaches c (s.inFrames i.op.code 0 [Frame.start i]) t := by
  obtain ⟨k, h⟩ := completes i.op.code 0 []
  rwa [inFrames_nil, show t.setRunning none = t from by ext1 <;> simp [idle]] at h

include fits completes idle trace

/-- The operation ends with its last event and not before (rule R27). -/
theorem accept_ticks_end :
    (s.accept c i).ticks c evs.length = t ∧ ∀ m < evs.length, ((s.accept c i).ticks c m).busy = true := by
  obtain ⟨settled, ok⟩ := accept_settled (s := s) fits
  refine ticks_to_end evs.length ok settled ((accept_reaches_end completes idle).through (accept_reaches c i s) idle)
    idle ?_
  have := congrArg List.length trace
  simpa [State.trace, State.accept] using this

/-- After `k` events the trace holds the first `k` events of the operation (rule R26). -/
theorem accept_ticks_trace {k : Nat} (hk : k ≤ evs.length) :
    ((s.accept c i).ticks c k).trace = s.trace ++ evs.take k := by
  obtain ⟨settled, ok⟩ := accept_settled (s := s) fits
  have busy := (accept_ticks_end fits completes idle trace).2
  have count := ticks_log_length ok settled fun m (hm : m < k) => busy m (by omega)
  have way : Reaches c ((s.accept c i).ticks c k) t :=
    (accept_reaches_end completes idle).through ((accept_reaches c i s).trans (reaches_ticks c k _)) idle
  have length : ((s.accept c i).ticks c k).trace.length = s.trace.length + k := by
    simpa [State.trace, State.accept] using count
  have initial : ((s.accept c i).ticks c k).trace <+: t.trace := List.reverse_prefix.2 way.log_suffix
  rw [List.prefix_iff_eq_take.1 initial, trace, length, List.take_length_add_append]

end

/-! ### PHASE along the events of CONNECT -/

/-- The active rules, none while the block is idle. -/
def State.frames (s : State) : List Frame := (s.running.map Operation.frames).getD []

@[simp] theorem frames_applyMove (s : State) (o : Operation) (fs : List Frame) (m : Move) :
    (applyMove s o fs m).frames = m.frames fs := by
  cases m with
  | ret => cases fs <;> rfl
  | _ => rfl

/-- A rule that writes no register and calls none that does: every rule but CONNECT and SETBL (rule R120). -/
def Frame.quiet : Frame → Bool
  | .setbl _ _ | .connect _ _ => false
  | .wrnib _ _ | .send _ _ _ | .sendcmd _ _ | .senddat _ _ | .setcur _ _ _ | .showstr _ _ _ | .shownum _ _ _
  | .clear _ => true

/-- A move that writes no register and leaves quiet rules. -/
def Move.quiet : Move → Bool
  | .emit _ f | .goto f => f.quiet
  | .call g f => g.quiet && f.quiet
  | .ret => true
  | .bindAddr _ _ | .writeBl _ _ | .writePhase _ _ => false

theorem showstr_move_quiet (c : Config) (p : Byte) (text : List Byte) (pos : ShowstrPos) :
    (moveShowstr c p text pos).quiet = true := by
  have stop (idx : Nat) (pos' : ShowstrPos) : (moveStop idx (.showstr p text pos')).quiet = true := by
    obtain ⟨-, h⟩ | ⟨-, h⟩ := moveStop_cases idx (.showstr p text pos') <;> rw [h] <;> rfl
  have line (i idx : Nat) (pos' : ShowstrPos) : (moveLineReset i idx (.showstr p text pos')).quiet = true := by
    obtain h | h := moveLineReset_cases i idx (.showstr p text pos') <;> rw [h] <;> rfl
  cases pos with
  | enter | loop i => simp only [moveShowstr]; split <;> rfl
  | firstTest i idx | secondTest i idx => simp only [moveShowstr]; split <;> simp only [stop, line]
  | char i idx => rfl

theorem move_quiet {f : Frame} (h : f.quiet = true) (c : Config) (a : Option BusAddress) (bl : Backlight) :
    (f.move c a bl).quiet = true := by
  cases f with
  | setbl _ _ | connect _ _ => cases h
  | wrnib v pos => cases pos <;> cases a <;> rfl
  | showstr p text pos => exact showstr_move_quiet c p text pos
  | send _ _ pos | sendcmd _ pos | senddat _ pos | setcur _ _ pos | shownum _ _ pos | clear pos =>
    cases pos <;> rfl

/-- A quiet move leaves quiet rules in place of the innermost one. -/
theorem move_quiet_frames {m : Move} (h : m.quiet = true) : ∀ f ∈ m.frames [], f.quiet = true := by
  cases m <;> simp_all [Move.quiet, Move.frames]

/-- A quiet move writes no register. -/
theorem applyMove_quiet {m : Move} (h : m.quiet = true) (s : State) (o : Operation) (fs : List Frame) :
    (applyMove s o fs m).busAddr = s.busAddr ∧ (applyMove s o fs m).bl = s.bl ∧
      (applyMove s o fs m).phase = s.phase := by
  cases m with
  | emit e f => cases e <;> exact ⟨rfl, rfl, rfl⟩
  | goto f | call g f | ret => exact ⟨rfl, rfl, rfl⟩
  | bindAddr _ _ | writeBl _ _ | writePhase _ _ => cases h

/-- The positions at which CONNECT stands while PHASE holds `ph`, once it has entered PowerSettle (rule R111). -/
def ConnectPos.StandsIn (ph : Phase) : ConnectPos → Prop
  | .validate | .bind => False
  | .enter next => ph ≠ .ready ∧ ph.following = next
  | .firstWait | .rawByte | .secondWait => ph = .powerSettle
  | .force _ | .forceWait _ => ph = .forceReset
  | .select | .selectWait => ph = .fourBitSelect
  | .config ph' | .configWait ph' => ph ≠ .ready ∧ ph' = ph
  | .clearCall => ph = .cleared
  | .leave => ph = .ready

theorem afterEnter_standsIn {ph : Phase} (h : ph ≠ .unconnected) : (ConnectPos.afterEnter ph).StandsIn ph := by
  cases ph <;> simp_all [ConnectPos.afterEnter, ConnectPos.StandsIn]

theorem following_ne_unconnected (ph : Phase) : ph.following ≠ .unconnected := by cases ph <;> decide

/-- What CONNECT's rule does next while PHASE holds `ph`: it goes on in the same state of the state machine, with an
event or a call, or it enters the following state, or it returns from the last. -/
theorem connect_move_cases (c : Config) (a : BusAddress) (bl : Backlight) (addr : Byte) {pos : ConnectPos}
    {ph : Phase} (h : pos.StandsIn ph) :
    (∃ pos', pos'.StandsIn ph ∧
      ((∃ e, moveConnect c (some a) bl addr pos = .emit e (.connect addr pos')) ∨
        ∃ g, g.quiet = true ∧ moveConnect c (some a) bl addr pos = .call g (.connect addr pos'))) ∨
    (ph ≠ .ready ∧ ∃ pos', pos'.StandsIn ph.following ∧
      moveConnect c (some a) bl addr pos = .writePhase ph.following (.connect addr pos')) ∨
    (ph = .ready ∧ moveConnect c (some a) bl addr pos = .ret) := by
  cases pos with
  | validate | bind => exact h.elim
  | enter next =>
    obtain ⟨hlast, rfl⟩ := h
    exact .inr (.inl ⟨hlast, _, afterEnter_standsIn (following_ne_unconnected ph), rfl⟩)
  | firstWait => exact .inl ⟨.rawByte, h, .inl ⟨_, rfl⟩⟩
  | rawByte => exact .inl ⟨.secondWait, h, .inl ⟨_, rfl⟩⟩
  | secondWait =>
    cases h
    exact .inl ⟨.enter .forceReset, ⟨by decide, rfl⟩, .inl ⟨_, rfl⟩⟩
  | force rep => exact .inl ⟨.forceWait rep, h, .inr ⟨_, rfl, rfl⟩⟩
  | forceWait rep =>
    refine .inl ⟨_, ?_, .inl ⟨_, rfl⟩⟩
    cases h
    split
    · rfl
    · exact ⟨by decide, rfl⟩
  | select => exact .inl ⟨.selectWait, h, .inr ⟨_, rfl, rfl⟩⟩
  | selectWait =>
    cases h
    exact .inl ⟨.enter .functionSet, ⟨by decide, rfl⟩, .inl ⟨_, rfl⟩⟩
  | config ph' => exact .inl ⟨.configWait ph', h, .inr ⟨_, rfl, rfl⟩⟩
  | configWait ph' =>
    obtain ⟨hlast, rfl⟩ := h
    exact .inl ⟨.enter ph'.following, ⟨hlast, rfl⟩, .inl ⟨_, rfl⟩⟩
  | clearCall =>
    cases h
    exact .inl ⟨.enter .ready, ⟨by decide, rfl⟩, .inr ⟨_, rfl, rfl⟩⟩
  | leave => exact .inr (.inr ⟨h, rfl⟩)

/-- CONNECT of `addr`, with its address bound, stands where PHASE says, perhaps inside rules it has called; or it has
ended in Ready. -/
def State.InConnect (addr : Byte) (bl : Backlight) (s : State) : Prop :=
  s.busAddr = some (addressField addr) ∧ s.bl = bl ∧
    ((s.frames = [] ∧ s.phase = .ready) ∨
      ∃ above pos, s.frames = above ++ [.connect addr pos] ∧ (∀ f ∈ above, f.quiet = true) ∧
        pos.StandsIn s.phase)

theorem frames_eq_nil_advance {s : State} (h : s.frames = []) (c : Config) :
    s.advance c = s ∨ s.advance c = s.setRunning none := by
  cases hr : s.running with
  | none => exact .inl (advance_of_none hr)
  | some o => exact .inr (advance_of_nil hr (by simpa [State.frames, hr] using h))

theorem frames_eq_cons_advance {s : State} {f : Frame} {fs : List Frame} (h : s.frames = f :: fs) (c : Config) :
    ∃ o, s.advance c = applyMove s o fs (f.move c s.busAddr s.bl) := by
  cases hr : s.running with
  | none => simp [State.frames, hr] at h
  | some o => exact ⟨o, advance_of_frames hr (by simpa [State.frames, hr] using h)⟩

section
variable {c : Config} {addr : Byte} {bl : Backlight} {s : State} (haddr : s.busAddr = some (addressField addr))
  (hbl : s.bl = bl)
include haddr hbl

/-- A move of a rule CONNECT has called writes no register and leaves CONNECT's position. -/
theorem advance_called_inConnect {f : Frame} {above : List Frame} {pos : ConnectPos}
    (hf : s.frames = f :: (above ++ [.connect addr pos])) (habove : ∀ g ∈ f :: above, g.quiet = true)
    (hpos : pos.StandsIn s.phase) : (s.advance c).InConnect addr bl ∧ (s.advance c).phase = s.phase := by
  obtain ⟨hquiet, hrest⟩ := List.forall_mem_cons.1 habove
  obtain ⟨o, h⟩ := frames_eq_cons_advance hf c
  have quiet := move_quiet hquiet c s.busAddr s.bl
  obtain ⟨haddr', hbl', hphase'⟩ := applyMove_quiet quiet s o (above ++ [.connect addr pos])
  rw [h]
  refine ⟨⟨haddr'.trans haddr, hbl'.trans hbl,
    .inr ⟨(f.move c s.busAddr s.bl).frames [] ++ above, pos, ?_, ?_, ?_⟩⟩, hphase'⟩
  · rw [frames_applyMove, move_frames_append, List.append_assoc]
  · exact List.forall_mem_append.2 ⟨move_quiet_frames quiet, hrest⟩
  · rwa [hphase']

/-- A move of CONNECT's own rule keeps PHASE, or writes the following state there. -/
theorem advance_own_inConnect {pos : ConnectPos} (hf : s.frames = [.connect addr pos])
    (hpos : pos.StandsIn s.phase) :
    (s.advance c).InConnect addr bl ∧
      ((s.advance c).phase = s.phase ∨ s.phase ≠ .ready ∧ (s.advance c).phase = s.phase.following) := by
  obtain ⟨o, h⟩ := frames_eq_cons_advance hf c
  rw [h, haddr, Frame.move]
  obtain ⟨pos', hpos', ⟨e, hm⟩ | ⟨g, hg, hm⟩⟩ | ⟨hlast, pos', hpos', hm⟩ | ⟨hready, hm⟩ :=
    connect_move_cases c (addressField addr) s.bl addr hpos <;> rw [hm]
  · cases e <;> exact ⟨⟨haddr, hbl, .inr ⟨[], pos', rfl, by simp, hpos'⟩⟩, .inl rfl⟩
  · exact ⟨⟨haddr, hbl, .inr ⟨[g], pos', rfl, by simpa using hg, hpos'⟩⟩, .inl rfl⟩
  · exact ⟨⟨haddr, hbl, .inr ⟨[], pos', rfl, by simp, hpos'⟩⟩, .inr ⟨hlast, rfl⟩⟩
  · exact ⟨⟨haddr, hbl, .inl ⟨rfl, hready⟩⟩, .inl rfl⟩

end

theorem phaseImage_le_following {ph : Phase} (h : ph ≠ .ready) : phaseImage ph ≤ phaseImage ph.following := by
  cases ph <;> simp_all [phaseImage, Phase.following]

theorem phaseImage_injective {ph ph' : Phase} (h : phaseImage ph = phaseImage ph') : ph = ph' := by
  cases ph <;> cases ph' <;> simp_all [phaseImage]

/-- Every move of CONNECT and of the rules it calls keeps the registers as CONNECT's position says, and PHASE never
goes back. -/
theorem advance_inConnect {c : Config} {addr : Byte} {bl : Backlight} {s : State} (h : s.InConnect addr bl) :
    (s.advance c).InConnect addr bl ∧ phaseImage s.phase ≤ phaseImage (s.advance c).phase := by
  obtain ⟨haddr, hbl, ⟨hf, hready⟩ | ⟨above, pos, hf, habove, hpos⟩⟩ := h
  · obtain h | h := frames_eq_nil_advance hf c <;> rw [h]
    · exact ⟨⟨haddr, hbl, .inl ⟨hf, hready⟩⟩, BitVec.le_refl _⟩
    · exact ⟨⟨haddr, hbl, .inl ⟨rfl, hready⟩⟩, BitVec.le_refl _⟩
  · cases above with
    | cons f above =>
      obtain ⟨hin, hphase⟩ := advance_called_inConnect (c := c) haddr hbl hf habove hpos
      exact ⟨hin, by rw [hphase]; exact BitVec.le_refl _⟩
    | nil =>
      obtain ⟨hin, hphase | ⟨hlast, hphase⟩⟩ := advance_own_inConnect (c := c) haddr hbl hf hpos
      · exact ⟨hin, by rw [hphase]; exact BitVec.le_refl _⟩
      · exact ⟨hin, by rw [hphase]; exact phaseImage_le_following hlast⟩

theorem Reaches.inConnect {c : Config} {addr : Byte} {bl : Backlight} {s t : State} (h : Reaches c s t)
    (hs : s.InConnect addr bl) : t.InConnect addr bl ∧ phaseImage s.phase ≤ phaseImage t.phase := by
  obtain ⟨n, rfl⟩ := h
  induction n generalizing s with
  | zero => exact ⟨hs, BitVec.le_refl _⟩
  | succ n ih =>
    obtain ⟨hadv, hle⟩ := advance_inConnect (c := c) hs
    obtain ⟨hend, hle'⟩ := ih hadv
    exact ⟨hend, BitVec.le_trans hle hle'⟩

/-! ### Where each state of the state machine begins and ends -/

/-- Moves lead from `s` with the rule `f` innermost to `t` with `f'` in its place, whatever rules they stand above. -/
def Leads (c : Config) (f : Frame) (s : State) (f' : Frame) (t : State) : Prop :=
  ∀ opc k fs, ∃ k', Reaches c (s.inFrames opc k (f :: fs)) (t.inFrames opc k' (f' :: fs))

section
variable {c : Config} {f f' f'' g : Frame} {s s' t : State}

theorem Leads.trans (h : Leads c f s f' s') (h' : Leads c f' s' f'' t) : Leads c f s f'' t := fun opc k fs => by
  obtain ⟨k₁, h₁⟩ := h opc k fs
  obtain ⟨k₂, h₂⟩ := h' opc k₁ fs
  exact ⟨k₂, h₁.trans h₂⟩

theorem Leads.advance
    (h : ∀ opc k fs, ∃ k', (s.inFrames opc k (f :: fs)).advance c = s'.inFrames opc k' (f' :: fs)) :
    Leads c f s f' s' := fun opc k fs => (h opc k fs).imp fun _ hk => .step (by rw [hk]; exact .refl _ _)

theorem Leads.call (h : f.move c s.busAddr s.bl = .call g f') (hg : Completes c g s t) : Leads c f s f' t :=
  fun opc k fs => (hg opc k (f' :: fs)).imp fun _ hk => .step (by rw [advance_inFrames, h]; exact hk)

end

theorem forceOnce_set {s : State} {a : BusAddress} (h : s.busAddr = some a) (c : Config) :
    forceOnce c s = s.extend (nibbleEvents a (0x30 ||| initBacklight c s.bl) ++ [.dus 4100]) := by
  rw [forceOnce, wrnib_set h, waitUs_eq_extend, extend_extend, initBits_eq]
  rfl

theorem configure_set {s : State} {a : BusAddress} (h : s.busAddr = some a) (p : Byte) :
    configure p s = s.extend (frameEvents a s.bl (.command, p) ++ [.dus 1000]) := by
  rw [configure, sendCmd, send_byte, waitUs_eq_extend, extend_extend, h]
  simp [guardedFrames, framesEvents, Params.tCfg]

section
variable {c : Config} {addr : Byte} {a : BusAddress} {s : State} (haddr : s.busAddr = some a)

theorem force_leads (rep : Nat) :
    Leads c (.connect addr (.force rep)) s
      (.connect addr (if rep + 1 < Params.forceRepeats then .force (rep + 1) else .enter .fourBitSelect))
      (forceOnce c s) :=
  (Leads.call rfl (wrnib_completes c _ s)).trans (.advance fun _ _ _ => ⟨_, rfl⟩)

theorem config_leads (ph : Phase) :
    Leads c (.connect addr (.config ph)) s (.connect addr (.enter ph.following)) (configure (configCommand c ph) s) :=
  (Leads.call rfl (sendcmd_completes c _ s)).trans (.advance fun _ _ _ => ⟨_, rfl⟩)

include haddr in
theorem powerSettle_leads :
    Leads c (.connect addr .firstWait) s (.connect addr (.enter .forceReset))
      (((s.waitMs 50).busWrite a (blBits s.bl)).waitMs 50) :=
  have raw : Leads c (.connect addr .rawByte) (s.waitMs 50) (.connect addr .secondWait)
      ((s.waitMs 50).busWrite a (blBits s.bl)) := .advance fun _ k _ => ⟨k + 1, by
    simp only [advance_inFrames, Frame.move, moveConnect, State.waitMs_busAddr, haddr, moveWrite]
    rfl⟩
  (Leads.advance fun _ _ _ => ⟨_, rfl⟩).trans (raw.trans (.advance fun _ _ _ => ⟨_, rfl⟩))

include haddr in
/-- Between two writes of PHASE, CONNECT emits the events of the state it has entered (the table of rule R111). -/
theorem phase_leads {ph : Phase} (hph : ph ∈ connectPhases) (hc : c.stopBeforeWrap = true) :
    Leads c (.connect addr (.afterEnter ph)) s (.connect addr (.enter ph.following))
      (s.extend (phaseEvents c a s.bl ph)) := by
  cases ph with
  | unconnected | ready => simp [connectPhases] at hph
  | powerSettle =>
    have events : s.extend (phaseEvents c a s.bl .powerSettle) =
        ((s.waitMs 50).busWrite a (blBits s.bl)).waitMs 50 := by
      simp only [busWrite_eq_extend, waitMs_eq_extend, extend_extend, blBits_eq]
      rfl
    rw [events]
    exact powerSettle_leads haddr
  | forceReset =>
    have events : s.extend (phaseEvents c a s.bl .forceReset) = forceOnce c (forceOnce c (forceOnce c s)) := by
      simp [forceOnce_set, haddr, extend_extend, phaseEvents]
    rw [events]
    exact (force_leads 0).trans ((force_leads 1).trans (force_leads 2))
  | fourBitSelect =>
    have events : s.extend (phaseEvents c a s.bl .fourBitSelect) =
        (wrnib (Params.nibSel4 ||| initBits c s.bl) s).waitUs Params.tCfg := by
      rw [wrnib_set haddr, waitUs_eq_extend, extend_extend, initBits_eq]
      rfl
    rw [events]
    exact (Leads.call rfl (wrnib_completes c _ s)).trans (.advance fun _ _ _ => ⟨_, rfl⟩)
  | functionSet => exact configure_set haddr c.cmdFunctionSet ▸ config_leads .functionSet
  | displayControl => exact configure_set haddr c.cmdDisplayCtrl ▸ config_leads .displayControl
  | entryModeSet => exact configure_set haddr c.cmdEntryMode ▸ config_leads .entryModeSet
  | cleared =>
    have events : s.extend (phaseEvents c a s.bl .cleared) = clearAll c s := by
      rw [clearAll_eq hc, haddr]
      rfl
    rw [events]
    exact .call rfl (clear_completes c s)

end

/-- How many events of CONNECT come before those of a state (the numbering of 95_test_vectors.md, section 2.3). -/
def eventsBefore : Phase → Nat
  | .unconnected | .powerSettle => 0
  | .forceReset => 3
  | .fourBitSelect => 21
  | .functionSet => 27
  | .displayControl => 38
  | .entryModeSet => 49
  | .cleared => 60
  | .ready => 400

theorem phaseAtEvent_spec {k : Nat} (hk : k < 400) :
    phaseAtEvent k ∈ connectPhases ∧ eventsBefore (phaseAtEvent k) ≤ k ∧
      k < eventsBefore (phaseAtEvent k).following := by
  unfold phaseAtEvent
  split_ifs <;> simp [connectPhases, eventsBefore, Phase.following] <;> omega

theorem length_framesEvents (a : BusAddress) (bl : Backlight) (fs : List LogicalWrite) :
    (framesEvents a bl fs).length = 10 * fs.length := by
  induction fs with
  | nil => rfl
  | cons f fs ih => exact congrArg (· + 10) ih

theorem eventsBefore_following (c : Config) (a : BusAddress) (bl : Backlight) (ph : Phase) :
    eventsBefore ph.following = eventsBefore ph + (phaseEvents c a bl ph).length := by
  cases ph with
  | cleared =>
    have frames : (textFrames (List.replicate 32 c.charSpace) 0).length = 34 := rfl
    rw [phaseEvents, length_framesEvents, frames]
    rfl
  | _ => rfl

theorem length_connectEvents (c : Config) (a : BusAddress) (bl : Backlight) :
    (connectEvents c a bl).length = 400 := by
  have length (ph : Phase) : (phaseEvents c a bl ph).length = eventsBefore ph.following - eventsBefore ph := by
    rw [eventsBefore_following c a bl, Nat.add_sub_cancel_left]
  simp [connectEvents, connectPhases, length, eventsBefore, Phase.following]

/-- CONNECT comes before `PHASE <- ph` with the address bound, BL as at its start, and the events of the states
before `ph` emitted. -/
def Begins (c : Config) (addr : Byte) (s : State) (ph : Phase) : Prop :=
  ∃ v, Leads c (.connect addr .validate) s (.connect addr (.enter ph)) v ∧ v.busAddr = some (addressField addr) ∧
    v.bl = s.bl ∧ v.log.length = s.log.length + eventsBefore ph

section
variable {c : Config} {addr : Byte} {s : State} (nonneg : addressNegative addr = false)

theorem enter_leads (ph : Phase) (v : State) :
    Leads c (.connect addr (.enter ph)) v (.connect addr (.afterEnter ph)) (v.setPhase ph) :=
  .advance fun _ _ _ => ⟨_, rfl⟩

include nonneg in
theorem begins_powerSettle : Begins c addr s .powerSettle :=
  have tested : Leads c (.connect addr .validate) s (.connect addr .bind) s := .advance fun _ k _ => ⟨k, by
    simp only [advance_inFrames, Frame.move, moveConnect, nonneg]
    rfl⟩
  ⟨s.setBusAddr (addressField addr), tested.trans (.advance fun _ _ _ => ⟨_, rfl⟩), rfl, rfl, rfl⟩

theorem Begins.following {ph : Phase} (h : Begins c addr s ph) (hph : ph ∈ connectPhases)
    (hc : c.stopBeforeWrap = true) : Begins c addr s ph.following := by
  obtain ⟨v, way, haddr, hbl, hlog⟩ := h
  refine ⟨_, way.trans ((enter_leads ph v).trans (phase_leads (s := v.setPhase ph) haddr hph hc)), haddr, hbl, ?_⟩
  rw [eventsBefore_following c (addressField addr) v.bl]
  simp
  omega

include nonneg in
theorem begins_of_mem (hc : c.stopBeforeWrap = true) : ∀ ph ∈ connectPhases, Begins c addr s ph := by
  have following {ph : Phase} (h : Begins c addr s ph) (hph : ph ∈ connectPhases) := h.following hph hc
  have forceReset := following (begins_powerSettle nonneg) (by decide)
  have fourBitSelect := following forceReset (by decide)
  have functionSet := following fourBitSelect (by decide)
  have displayControl := following functionSet (by decide)
  have entryModeSet := following displayControl (by decide)
  have cleared := following entryModeSet (by decide)
  simp only [connectPhases, List.forall_mem_cons]
  exact ⟨begins_powerSettle nonneg, forceReset, fourBitSelect, functionSet, displayControl, entryModeSet, cleared,
    List.forall_mem_nil _⟩

include nonneg in
/-- Before the next event of CONNECT, the number of events emitted says which state of the state machine it is in:
that state began with no more events, and the following one begins with more. -/
theorem phase_of_settled {u : State} {opc : Byte} {k : Nat} (hc : c.stopBeforeWrap = true)
    (way : Reaches c (s.inFrames opc 0 [.connect addr .validate]) u) (settled : u.settled c = true) (hk : k < 400)
    (hlog : u.log.length = s.log.length + k) :
    u.phase = phaseAtEvent k ∧ u.busAddr = some (addressField addr) ∧ u.bl = s.bl := by
  obtain ⟨hph, hfirst, hnext⟩ := phaseAtEvent_spec hk
  generalize phaseAtEvent k = ph at *
  obtain ⟨v, enters, haddr, hbl, hv⟩ := begins_of_mem (c := c) (s := s) nonneg hc ph hph
  obtain ⟨k₁, begins⟩ := (enters.trans (enter_leads ph v)) opc 0 []
  obtain ⟨k₂, ends⟩ := phase_leads (addr := addr) (s := v.setPhase ph) haddr hph hc opc k₁ []
  have before := begins.before_settled way settled (by simp [State.inFrames, hv, hlog, hfirst])
  have after := (begins.trans ends).after_of_log_lt way (by
    rw [eventsBefore_following c (addressField addr) v.bl] at hnext
    simp [State.inFrames, hv, hlog]
    omega)
  have start : ((v.setPhase ph).inFrames opc k₁ [.connect addr (.afterEnter ph)]).InConnect addr s.bl :=
    ⟨haddr, hbl, .inr ⟨[], _, rfl, by simp, afterEnter_standsIn (by rintro rfl; simp [connectPhases] at hph)⟩⟩
  obtain ⟨inConnect, lower⟩ := before.inConnect start
  obtain ⟨-, upper⟩ := after.inConnect inConnect
  obtain ⟨haddr', hbl', -⟩ := inConnect
  exact ⟨phaseImage_injective (BitVec.le_antisymm upper lower), haddr', hbl'⟩

include nonneg in
/-- CONNECT's rule runs to the end its closed form gives (rules R110 and R111). -/
theorem connect_completes_ready (hc : c.stopBeforeWrap = true) :
    Completes c (.connect addr .validate) s
      (((s.setBusAddr (addressField addr)).setPhase .ready).extend (connectEvents c (addressField addr) s.bl)) := by
  rw [← handshake_eq hc]
  simpa [connect, nonneg] using connect_completes c addr s

end

/-- Settles O19: while events are still to come CONNECT is in the state their number says, and after the last it is
where its closed form ends. -/
theorem phaseDuringConnect : Obligations.PhaseDuringConnect := by
  intro addr s k idle hsign hk
  have nonneg : addressNegative addr = false := by
    simpa using mt (addressNegative_iff addr).1 (Int.not_lt.2 hsign)
  have completes := connect_completes_ready (c := Params.spec) (s := s) nonneg rfl
  have fits : (Frame.start (.connect addr)).fits Params.spec = true := rfl
  have length := length_connectEvents Params.spec (addressField addr) s.bl
  have trace := accept_ticks_trace (i := .connect addr) fits completes idle (State.extend_trace _ _)
    (hk.trans_eq length.symm)
  obtain rfl | more := hk.eq_or_lt
  · have ends := (accept_ticks_end (i := .connect addr) fits completes idle (State.extend_trace _ _)).1
    rw [length] at ends
    exact ⟨congrArg State.phase ends, congrArg State.busAddr ends, (congrArg State.bl ends :), trace⟩
  · obtain ⟨settled, ok⟩ := accept_settled (s := s) fits
    have way := (accept_reaches Params.spec (.connect addr) s).trans (reaches_ticks Params.spec k _)
    have count := congrArg List.length trace
    simp only [State.trace, List.length_append, List.length_take, List.length_reverse, length] at count
    obtain ⟨hphase, haddr, hbl⟩ :=
      phase_of_settled nonneg rfl way (ticks_settled ok settled k).1 more (by omega)
    exact ⟨hphase, haddr, hbl, trace⟩

end Sys2Proof.Machine

/-! SUPPORT. Proofs of the family 43_display_ops: what is read off the frames of a trace, the decimal numeral, and the
display operations as SHOWSTR or SENDCMD of their operands. -/

namespace Sys2Proof.Machine

open Sys2Proof.Claims

/-! ### The framed view of a sequence of frames -/

/-- A nibble transmission is recognised whatever byte it carries, and whatever events come after it (rule R12). -/
theorem nibbleTokens_nibbleEvents (a : BusAddress) (v : Byte) (rest : List Event) :
    nibbleTokens (nibbleEvents a v ++ rest) = .sent (readNibble (v &&& 0xFB)) :: nibbleTokens rest := by
  have enable : v ||| 0x04 = v &&& 0xFB ||| 0x04 := by
    revert v
    decide
  have recognised : isNibbleAt a (v &&& 0xFB) a (v ||| 0x04) 1 a (v &&& 0xFB) 50 = true :=
    decide_eq_true ⟨rfl, rfl, by simp, enable, rfl, rfl, rfl⟩
  exact if_pos recognised

/-- What a composed byte is read as: the bits it was composed of (rules R12 and R62). -/
theorem readNibble_composed {n : Byte} (h0 : n[0] = false) (h3 : n[3] = false) (bl : Backlight) (rs : RegSel) :
    readNibble (composed n bl rs &&& 0xFB) = ⟨decide (rs = .data), decide (bl = .on), n.extractLsb' 4 4⟩ := by
  have nibble : (composed n bl rs &&& 0xFB).extractLsb' 4 4 = n.extractLsb' 4 4 := by
    rw [BitVec.extractLsb'_and, composed_extract_nibble]
    exact BitVec.and_allOnes
  rw [readNibble, nibble]
  cases bl <;> cases rs <;> simp [composed, h0, h3]

theorem frameEvents_eq_composed (a : BusAddress) (bl : Backlight) (rs : RegSel) (p : Byte) :
    frameEvents a bl (rs, p) =
      nibbleEvents a (composed (p &&& 0xF0) bl rs) ++ nibbleEvents a (composed (p <<< 4) bl rs) := rfl

theorem extract_nibbles_append (p : Byte) : p.extractLsb' 4 4 ++ p.extractLsb' 0 4 = p := by
  revert p
  decide

/-- A frame is read as its register-select and its byte, whatever events come after it (rule R12). -/
theorem framedView_frameEvents (a : BusAddress) (bl : Backlight) (f : LogicalWrite) (rest : List Event) :
    framedView (frameEvents a bl f ++ rest) = .frame f.1 f.2 :: framedView rest := by
  obtain ⟨rs, p⟩ := f
  have sel : (if decide (rs = .data) then RegSel.data else .command) = rs := by cases rs <;> rfl
  rw [framedView, frameEvents_eq_composed, List.append_assoc, nibbleTokens_nibbleEvents, nibbleTokens_nibbleEvents,
    readNibble_composed (by simp) (by simp), readNibble_composed (by simp) (by simp), frameTokens, if_pos rfl, sel,
    extract_high_of_and_nibMask, extract_high_of_shiftLeft_four, extract_nibbles_append, framedView]

/-- The framed view undoes the framing: it reads the frames that were sent. -/
theorem framedView_framesEvents (a : BusAddress) (bl : Backlight) (fs : List LogicalWrite) :
    framedView (framesEvents a bl fs) = fs.map fun f => .frame f.1 f.2 := by
  induction fs with
  | nil => rfl
  | cons f fs ih => exact (framedView_frameEvents a bl f _).trans (congrArg _ ih)

/-! ### The text operations -/

/-- SHOWSTR in one line (rule R123). -/
theorem exec_showstr (pos : Byte) (text : List Byte) (s : State) :
    exec (.showstr pos text) s = .next (s.extend (guardedFrames s.busAddr s.bl (textFrames text pos.toNat))) :=
  exec_eq (.showstr pos text) s

theorem exec_shownum (pos : Byte) (v : Word32) (s : State) :
    exec (.shownum pos v) s = exec (.showstr pos (decimalString v.toInt)) s := rfl

theorem exec_clear (s : State) : exec .clear s = exec (.showstr 0 (List.replicate 32 0x20)) s := rfl

/-- Settles O22: SHOWSTR's closed form. -/
theorem showstrWritesAndWraps : Obligations.ShowstrWritesAndWraps := fun pos text s =>
  ⟨rfl, exec_showstr pos text s⟩

/-- Settles O23: with an address the events of SHOWSTR are those of its frames, which the framed view reads back. -/
theorem showstrFramedView : Obligations.ShowstrFramedView := by
  intro pos text s a ha
  refine ⟨_, framesEvents a s.bl (textFrames text pos.toNat), exec_showstr pos text s, ?_,
    framedView_framesEvents a s.bl _⟩
  rw [State.extend_trace, ha]
  rfl

/-! ### Numbers -/

/-- The bytes of a 32-bit value are its bits, eight at a time (rule R56). -/
theorem byteOfWord32_eq_extract (v : Word32) (k : Nat) : byteOfWord32 v k = v.extractLsb' (8 * k) 8 := by
  rw [byteOfWord32, BitVec.extractLsb', Nat.shiftRight_eq_div_pow, Nat.pow_mul]

/-- A number of 32 bits has at most ten digits and a sign (rule R124). -/
theorem decimalString_length_le (v : Word32) : (decimalString v.toInt).length ≤ 11 := by
  have bound : v.toInt.natAbs < 10 ^ (9 + 1) := by
    have upper := v.toInt_lt
    have lower := v.le_toInt
    omega
  have numerals : (digits v.toInt.natAbs).length ≤ 10 := digitsUpTo_length _ 9 _ bound
  by_cases negative : v.toInt < 0
  · rw [decimalString, if_pos negative, List.length_cons]
    omega
  · rw [decimalString, if_neg negative]
    omega

/-- Settles O25: the four operand bytes are the bits of the value, and SHOWNUM is defined by SHOWSTR. -/
theorem shownumDelegatesToShowstr : Obligations.ShownumDelegatesToShowstr := by
  intro pos v s
  refine ⟨?_, ⟨_, (exec_shownum pos v s).trans (exec_showstr pos _ s), exec_showstr pos _ s⟩,
    decimalString_length_le v⟩
  simp only [encode, encodeOperands, byteOfWord32_eq_extract]
  rfl

/-- The base-ten digits of a number, the most significant first: the single 0 for zero (rule R125). -/
def decimalDigits (n : Nat) : List Nat := if n = 0 then [0] else (Nat.digits 10 n).reverse

@[simp] theorem decimalDigits_zero : decimalDigits 0 = [0] := rfl

theorem decimalDigits_of_ne_zero {n : Nat} (h : n ≠ 0) : decimalDigits n = (Nat.digits 10 n).reverse := if_neg h

theorem decimalDigits_of_lt_ten {n : Nat} (h : n < 10) : decimalDigits n = [n] := by
  obtain rfl | nonzero := eq_or_ne n 0
  · rfl
  · rw [decimalDigits_of_ne_zero nonzero, Nat.digits_of_lt 10 n nonzero h, List.reverse_singleton]

theorem decimalDigits_of_ten_le {n : Nat} (h : 10 ≤ n) :
    decimalDigits n = decimalDigits (n / 10) ++ [n % 10] := by
  rw [decimalDigits_of_ne_zero (by omega), decimalDigits_of_ne_zero (by omega),
    Nat.digits_def' (by omega) (by omega), List.reverse_cons]

theorem decimalDigits_ne_nil (n : Nat) : decimalDigits n ≠ [] := by
  obtain rfl | nonzero := eq_or_ne n 0
  · exact List.cons_ne_nil 0 []
  · simpa [decimalDigits_of_ne_zero nonzero, Nat.digits_ne_nil_iff_ne_zero] using nonzero

theorem lt_ten_of_mem_decimalDigits {n d : Nat} (h : d ∈ decimalDigits n) : d < 10 := by
  obtain rfl | nonzero := eq_or_ne n 0
  · rw [decimalDigits_zero, List.mem_singleton] at h
    omega
  · rw [decimalDigits_of_ne_zero nonzero, List.mem_reverse] at h
    exact Nat.digits_lt_base (by omega) h

/-- Only the numeral of zero begins with a 0 (rule R125). -/
theorem decimalDigits_of_head?_zero {n : Nat} (h : (decimalDigits n).head? = some 0) : decimalDigits n = [0] := by
  obtain rfl | nonzero := eq_or_ne n 0
  · rfl
  · rw [decimalDigits_of_ne_zero nonzero, List.head?_reverse,
      List.getLast?_eq_some_getLast (Nat.digits_ne_nil_iff_ne_zero.2 nonzero)] at h
    exact absurd (Option.some.inj h) (Nat.getLast_digit_ne_zero 10 nonzero)

/-- The base-ten value of the digits is the number. -/
theorem foldl_decimalDigits (n : Nat) : (decimalDigits n).foldl (fun m d => 10 * m + d) 0 = n := by
  obtain rfl | nonzero := eq_or_ne n 0
  · rfl
  · have value := Nat.ofDigits_eq_foldr 10 (Nat.digits 10 n)
    rw [Nat.ofDigits_digits] at value
    rw [decimalDigits_of_ne_zero nonzero, List.foldl_reverse]
    simpa only [Nat.cast_id, Nat.add_comm] using value.symm

/-- Any fuel above the number is enough for the divisions of its numeral. -/
theorem digitsUpTo_eq {fuel n : Nat} (h : n < fuel) : digitsUpTo fuel n = (decimalDigits n).map digitCode := by
  induction fuel generalizing n with
  | zero => omega
  | succ fuel ih =>
    by_cases small : n < 10
    · rw [digitsUpTo, if_pos small, decimalDigits_of_lt_ten small, List.map_singleton]
    · rw [digitsUpTo, if_neg small, ih (by omega), decimalDigits_of_ten_le (Nat.le_of_not_lt small), List.map_append,
        List.map_singleton]

/-- `digits(n)` is the numeral written in digit codes (rule R125). -/
theorem digits_eq (n : Nat) : digits n = (decimalDigits n).map digitCode := digitsUpTo_eq n.lt_succ_self

theorem decimalString_eq (v : Int) :
    decimalString v = (if v < 0 then [0x2D] else []) ++ (decimalDigits v.natAbs).map digitCode := by
  rw [decimalString, digits_eq]
  by_cases negative : v < 0
  · rw [if_pos negative, if_pos negative, List.singleton_append]
  · rw [if_neg negative, if_neg negative, List.nil_append]

/-- Settles O26: the digits are those of the magnitude. -/
theorem decimalStringIsCanonical : Obligations.DecimalStringIsCanonical := fun v =>
  ⟨decimalDigits v.natAbs, decimalDigits_ne_nil _, fun _ => lt_ten_of_mem_decimalDigits, decimalDigits_of_head?_zero,
    foldl_decimalDigits _, decimalString_eq v⟩

/-! ### CLEAR -/

theorem requestedMicros_append (xs ys : List Event) :
    requestedMicros (xs ++ ys) = requestedMicros xs + requestedMicros ys := by
  simp [requestedMicros]

/-- Each frame of a sequence costs ten events, six bus writes and 102 µs (rules R103 and R182). -/
theorem costOf_framesEvents (a : BusAddress) (bl : Backlight) (fs : List LogicalWrite) :
    costOf (framesEvents a bl fs) = frameCost fs.length := by
  induction fs with
  | nil => rfl
  | cons f fs ih =>
    have first : costOf (frameEvents a bl f) = frameCost 1 := rfl
    simp only [costOf, frameCost, Cost.mk.injEq] at first ih ⊢
    simp only [framesEvents, List.flatMap_cons] at ih ⊢
    simp +arith [first, ih, requestedMicros_append]

/-- Settles O27: CLEAR is defined by SHOWSTR, and the frames of 32 blanks are 34. -/
theorem clearWritesBlanks : Obligations.ClearWritesBlanks := by
  refine fun s => ⟨rfl, exec_clear s, ?_, fun a bl => costOf_framesEvents a bl clearFrames⟩
  rw [exec_clear, exec_showstr, ← textFrames_blanks]
  rfl

/-! ### SETCUR and SETBL -/

/-- SETCUR's command as an integer sum, for every line and column (rule R121). -/
theorem cursorCommand_toNat (line column : Byte) :
    cursorCommand line.toNat column.toNat = (if line = 0 then 0x80 else 0xC0) + column.toNat := by
  have zero_iff : line.toNat = 0 ↔ line = 0 := (BitVec.toNat_eq (x := line) (y := 0)).symm
  simp only [cursorCommand, zero_iff]
  rfl

/-- Settles O21: SETCUR is SENDCMD of its command, of which SEND takes the low byte. -/
theorem setcurSendsDdramAddress : Obligations.SetcurSendsDdramAddress := by
  intro line column s
  refine ⟨rfl, setCur line.toNat column.toNat s, rfl, ?_⟩
  rw [exec_sendcmd, exec_send_ofNat, ← cursorCommand_toNat]
  rfl

/-- Settles O28: SETBL's closed form. -/
theorem setblStoresThenPushes : Obligations.SetblStoresThenPushes := fun b s =>
  ⟨by cases b <;> rfl, exec_eq (.setbl b) s⟩

/-! ### The pseudo-instruction `position` -/

theorem positionHelper_of_le {n : Nat} (h : n ≤ 31) : positionHelper n = some n := if_pos (Nat.lt_succ_of_le h)

theorem positionHelper_of_lt {n : Nat} (h : 31 < n) : positionHelper n = none := if_neg (Nat.not_lt_of_le h)

/-- On the display, `position(n)` is the byte of the bare number (rules R77 and R129). -/
theorem byte_position_of_mem {n : Int} (h : 0 ≤ n ∧ n ≤ 31) :
    (PosArg.position n).byte = (PosArg.number n).byte := by
  obtain ⟨low, high⟩ := h
  lift n to Nat using low
  have position : (PosArg.position n).byte = some (BitVec.ofNat 8 n) := by
    simp [PosArg.byte, positionHelper_of_le (show n ≤ 31 by omega)]
  have number : (PosArg.number n).byte = some (BitVec.ofNat 8 n) := by
    rw [PosArg.byte, byteOperand, if_pos (by omega), BitVec.ofInt_natCast]
  rw [position, number]

/-- Beyond the display, `position(n)` is no byte (rule R129). -/
theorem byte_position_of_not_mem {n : Int} (h : n < 0 ∨ 31 < n) : (PosArg.position n).byte = none := by
  obtain negative | beyond := h
  · exact if_neg (Int.not_le.2 negative)
  · simp [PosArg.byte, positionHelper_of_lt (show 31 < n.toNat by omega)]

section
variable {p q : PosArg} (text : List Char) (v : Int)

/-- A position operand goes into a packet as its byte and in no other way. -/
theorem assemble_congr_position (h : p.byte = q.byte) :
    assemble (.showString text p) = assemble (.showString text q) ∧
      assemble (.showNumber v p) = assemble (.showNumber v q) := by
  simp only [assemble, h, and_self]

theorem assemble_of_no_position (h : p.byte = none) :
    assemble (.showString text p) = none ∧ assemble (.showNumber v p) = none := by
  cases ht : textOperand text <;> simp [assemble, h, ht]

end

/-- Settles O49: `position` on both sides of the bound, by itself and as an operand. -/
theorem positionIsIdentity : Obligations.PositionIsIdentity :=
  ⟨fun _ => positionHelper_of_le, fun _ => positionHelper_of_lt,
    fun _ _ _ _ => positionHelper_of_le (by omega),
    fun _ text v h => assemble_congr_position text v (byte_position_of_mem h),
    fun _ text v h => assemble_of_no_position text v (byte_position_of_not_mem h)⟩

end Sys2Proof.Machine

/-! SUPPORT. Proofs of the family 60_exceptions: every step answers a next state, and the silent results of the invalid
inputs. -/

namespace Sys2Proof.Machine

open Sys2Proof.Claims

/-! ### Nothing is raised -/

/-- A step that moves answers where it moves to, and one that runs an instruction answers what its closed form says. -/
theorem step_answers_next (s : State) : ∃ t, step s = .next t := by
  unfold step
  cases s.fetch with
  | moved t => exact ⟨t, rfl⟩
  | run i t => exact ⟨_, exec_eq i t⟩

/-- Settles O31: an operation answers its closed form, and a step moves or runs an operation. -/
theorem nothingIsEverRaised : Obligations.NothingIsEverRaised :=
  ⟨fun i s => ⟨_, exec_eq i s⟩, step_answers_next⟩

/-! ### Invalid inputs -/

/-- A text that starts beyond the display sends no frame, not even its cursor command (rule R152 (b)). -/
theorem textFrames_of_beyond {pos : Nat} (h : 31 < pos) (text : List Byte) : textFrames text pos = [] := if_pos h

theorem exec_showstr_of_beyond {pos : Byte} (h : 31 < pos.toNat) (text : List Byte) (s : State) :
    exec (.showstr pos text) s = .next s := by
  rw [exec_showstr, textFrames_of_beyond h, guardedFrames_nil, extend_nil]

theorem shownCount_take (text : List Byte) (pos : Nat) :
    shownCount (text.take (32 - pos)) pos = shownCount text pos := by
  simp only [shownCount, List.length_take]
  omega

/-- The frames of a text are those of its part that fits: the characters sent stand in it (rule R152 (c)). -/
theorem textFrames_take (text : List Byte) (pos : Nat) :
    textFrames (text.take (32 - pos)) pos = textFrames text pos := by
  have same_char : ∀ j ∈ List.range (shownCount text pos), (text.take (32 - pos)).getD j 0 = text.getD j 0 := by
    intro j hj
    have fits : j < 32 - pos := (List.mem_range.1 hj).trans_le (Nat.min_le_right _ _)
    rw [List.getD_eq_getElem?_getD, List.getElem?_take_of_lt fits, List.getD_eq_getElem?_getD]
  unfold textFrames
  rw [shownCount_take, List.flatMap_congr fun j hj => by rw [same_char j hj]]

theorem exec_showstr_take (pos : Byte) (text : List Byte) (s : State) :
    exec (.showstr pos (text.take (32 - pos.toNat))) s = exec (.showstr pos text) s := by
  rw [exec_showstr, exec_showstr, textFrames_take]

/-- Settles O34: each clause of rule R152 by the lemma about its operation or about the port. -/
theorem invalidInputIgnored : Obligations.InvalidInputIgnored :=
  ⟨fun addr s => (negativeAddressIgnored addr s).2,
    fun pos _ v s h =>
      ⟨exec_showstr_of_beyond h _ s, (exec_shownum pos v s).trans (exec_showstr_of_beyond h _ s)⟩,
    fun pos text s => ⟨_, exec_showstr pos text s, (exec_showstr_take pos text s).trans (exec_showstr pos text s)⟩,
    fun _ _ _ => step_of_malformed⟩

end Sys2Proof.Machine

/-! SUPPORT. Proofs of the family 70_reset_and_hazards: a reset in the middle of an operation, and the events, bus
writes and requested waits of every operation. -/

namespace Sys2Proof.Machine

open Sys2Proof.Claims

/-! ### A command through its packet -/

/-- The little-endian bytes of a 32-bit value give it back (rule R56). -/
theorem word32OfBytes_byteOfWord32 (v : Word32) :
    word32OfBytes (byteOfWord32 v 0) (byteOfWord32 v 1) (byteOfWord32 v 2) (byteOfWord32 v 3) = v := by
  apply BitVec.eq_of_toNat_eq
  have := v.isLt
  simp only [word32OfBytes, byteOfWord32, BitVec.toNat_ofNat]
  omega

/-- The decoder gives back every well-formed command from its packet (rule R75). -/
theorem decode_encode {i : Instr} (h : i.wf = true) : decode (encode i) = .cmd i := by
  rw [encode, decode_code_cons]
  cases i with
  | showstr pos text =>
    have fits : text.length ≤ 255 := of_decide_eq_true h
    refine if_pos ?_
    rw [BitVec.toNat_ofNat, Nat.mod_eq_of_lt (by omega)]
  | shownum pos v => exact congrArg (fun v => Decoded.cmd (.shownum pos v)) (word32OfBytes_byteOfWord32 v)
  | setbl b => cases b <;> rfl
  | send rs p => cases rs <;> rfl
  | _ => rfl

/-! ### An operation run event by event -/

/-- The rule of every operation runs to the state the operation answers (rule R10). -/
theorem exec_completes : ∀ (i : Instr) (s : State), ∃ u, exec i s = .next u ∧ Completes Params.spec (Frame.start i) s u
  | .connect addr, s => ⟨_, rfl, connect_completes _ addr s⟩
  | .showstr pos text, s => ⟨_, rfl, showstr_completes _ pos text s⟩
  | .shownum pos v, s => ⟨_, rfl, shownum_completes _ pos v s⟩
  | .clear, s => ⟨_, rfl, clear_completes _ s⟩
  | .setbl b, s => ⟨_, rfl, setbl_completes _ b s⟩
  | .wrnib v, s => ⟨_, rfl, wrnib_completes _ v s⟩
  | .send rs p, s => ⟨_, rfl, send_completes _ rs p s⟩
  | .sendcmd p, s => ⟨_, rfl, sendcmd_completes _ p s⟩
  | .senddat p, s => ⟨_, rfl, senddat_completes _ p s⟩
  | .setcur line column, s => ⟨_, rfl, setcur_completes _ line column s⟩

theorem start_completes {i : Instr} {s u : State} (h : exec i s = .next u) :
    Completes Params.spec (Frame.start i) s u := by
  obtain ⟨v, hv, completes⟩ := exec_completes i s
  rwa [Host.Outcome.next.inj (h.symm.trans hv)]

/-- The operand latches of a well-formed command hold values of their ranges (rule R25). -/
theorem start_fits {i : Instr} (h : i.wf = true) (c : Config) : (Frame.start i).fits c = true := by
  cases i with
  | showstr pos text => exact (Bool.and_true _).trans h
  | _ => rfl

@[simp] theorem registersAfter_running (i : Instr) (s : State) : (registersAfter i s).running = s.running := by
  cases i with
  | connect addr => by_cases h : addr.toInt < 0 <;> simp [registersAfter, h]
  | _ => rfl

/-- An operation run whole leaves the transient state as it is (rule R10). -/
theorem exec_running {i : Instr} {s u : State} (h : exec i s = .next u) : u.running = s.running := by
  rw [exec_eq] at h
  cases h
  simp

/-! ### The pending inputs are the port's -/

/-- A move reads and writes no pending input (rules R26 and R27). -/
theorem applyMove_setInputs (s : State) (ins : List HostInput) (o : Operation) (fs : List Frame) (m : Move) :
    applyMove (s.setInputs ins) o fs m = (applyMove s o fs m).setInputs ins := by
  cases m with
  | emit e f => cases e <;> rfl
  | _ => rfl

theorem advance_setInputs (c : Config) (ins : List HostInput) (s : State) :
    (s.setInputs ins).advance c = (s.advance c).setInputs ins := by
  cases hr : s.running with
  | none => rw [advance_of_none hr, advance_of_none (s := s.setInputs ins) hr]
  | some o =>
    cases hf : o.frames with
    | nil =>
      rw [advance_of_nil hr hf, advance_of_nil (s := s.setInputs ins) hr hf]
      rfl
    | cons f fs =>
      rw [advance_of_frames hr hf, advance_of_frames (s := s.setInputs ins) hr hf]
      exact applyMove_setInputs s ins o fs _

section
variable (c : Config) (ins : List HostInput) (s : State)

/-- Settling is the same with other inputs pending. -/
theorem settle_setInputs : (s.setInputs ins).settle c = (s.settle c).setInputs ins :=
  settle_related (R := fun s t => t = s.setInputs ins) (fun s _ h => h ▸ advance_setInputs c ins s)
    (fun _ _ h => h ▸ rfl) rfl

theorem tick_setInputs : (s.setInputs ins).tick c = (s.tick c).setInputs ins := by
  rw [State.tick, advance_setInputs, settle_setInputs, State.tick]

theorem accept_setInputs (i : Instr) : (s.setInputs ins).accept c i = (s.accept c i).setInputs ins :=
  settle_setInputs c ins (s.setRunning (some (Operation.start i)))

end

/-! ### A reset in the middle of an operation -/

/-- In the event view the idle block latches the command offered and stands before its first event (rule R25). -/
theorem step_accepts {i : Instr} {s : State} {rest : List HostInput} (hi : i.wf = true) (idle : s.running = none)
    (view : s.view = .event) (inputs : s.inputs = .packet (encode i) :: rest) :
    step s = .next ((s.accept Params.spec i).setInputs rest) := by
  rw [← accept_setInputs]
  simp [step, State.fetch, State.busy, idle, fetchIdle, inputs, takePacket, decode_encode hi, view]

/-- A reset that is due happens whether or not an operation is in progress (rules R170 and R171). -/
theorem step_reset_due (s : State) (rest : List HostInput) :
    step (s.setInputs (.reset 0 :: rest)) = .next (s.setInputs rest).resetBlock := by
  have due : (s.setInputs (.reset 0 :: rest)).fetch = .moved (s.setInputs rest).resetBlock := by
    unfold State.fetch
    split <;> rfl
  rw [step, due]

/-- With a reset still to come the next event of the operation happens (rule R171). -/
theorem step_reset_pending {s : State} (busy : s.busy = true) (k : Nat) (rest : List HostInput) :
    step (s.setInputs (.reset (k + 1) :: rest)) = .next ((s.tick Params.spec).setInputs (.reset k :: rest)) := by
  have busy' : (s.setInputs (.reset (k + 1) :: rest)).busy = true := busy
  rw [← tick_setInputs, step, State.fetch, if_pos busy']
  rfl

theorem run_succ (M : Host.Core) {s t : M.State} (h : M.step s = .next t) (k : Nat) : M.run (k + 1) s = M.run k t := by
  rw [Host.Core.run, h]

/-- While the operation lasts, a reset `k` events ahead lets `k` events happen and then abandons it (rule R171). -/
theorem run_to_reset {s : State} {k : Nat} (busy : ∀ m < k, (s.ticks Params.spec m).busy = true)
    (rest : List HostInput) :
    core.run (k + 1) (s.setInputs (.reset k :: rest)) =
      .next ((s.ticks Params.spec k).setInputs rest).resetBlock := by
  induction k generalizing s with
  | zero => exact run_succ core (step_reset_due s rest) 0
  | succ k ih =>
    have busy_next : ∀ m < k, ((s.tick Params.spec).ticks Params.spec m).busy = true := fun m hm =>
      ticks_succ Params.spec m s ▸ busy (m + 1) (Nat.succ_lt_succ hm)
    rw [ticks_succ, ← ih busy_next]
    exact run_succ core (step_reset_pending (busy 0 k.succ_pos) k rest) (k + 1)

/-- Settles O3: the operation is busy before each of its events, so the reset comes after the `k` ticks that leave the
first `k` events in the trace. -/
theorem resetAbandonsOperationAtEvent : Obligations.ResetAbandonsOperationAtEvent := by
  intro i s u evs k rest hi idle view inputs hu trace hk
  have ended : u.running = none := (exec_running hu).trans idle
  have fits := start_fits hi Params.spec
  have completes := start_completes hu
  have busy := (accept_ticks_end fits completes ended trace).2
  refine ⟨_, (run_succ core (step_accepts hi idle view inputs) (k + 1)).trans
    (run_to_reset (fun m hm => busy m (hm.trans_le hk)) rest), ?_, rfl, rfl, rfl, rfl, rfl⟩
  exact accept_ticks_trace fits completes ended trace hk

/-! ### The cost of a trace -/

/-- The cost of one trace after another. -/
def addCost (x y : Cost) : Cost where
  events := x.events + y.events
  writes := x.writes + y.writes
  dus1 := x.dus1 + y.dus1
  dus50 := x.dus50 + y.dus50
  dms50 := x.dms50 + y.dms50
  dus4100 := x.dus4100 + y.dus4100
  dus1000 := x.dus1000 + y.dus1000
  micros := x.micros + y.micros

theorem costOf_append (xs ys : List Event) : costOf (xs ++ ys) = addCost (costOf xs) (costOf ys) := by
  simp [costOf, addCost, requestedMicros_append]

/-- A frame for each of `n` characters from a position on, and the cursor re-set where they cross into line 1 (rule
R123). -/
theorem length_characterFrames (text : List Byte) (pos n : Nat) :
    ((List.range n).flatMap fun j =>
        (if pos + j = 16 ∧ j ≠ 0 then [(RegSel.command, (0xC0 : Byte))] else []) ++ [(.data, text.getD j 0)]).length =
      n + if pos < 16 ∧ 16 < pos + n then 1 else 0 := by
  induction n with
  | zero =>
    rw [if_neg (by omega)]
    rfl
  | succ n ih =>
    rw [List.range_succ, List.flatMap_append, List.length_append, ih, List.flatMap_singleton, List.length_append,
      apply_ite List.length, List.length_singleton, List.length_nil, List.length_singleton]
    split_ifs <;> omega

/-- A text has the frames of its characters and the initial cursor command (rule R123, corner case (f)). -/
theorem length_textFrames (text : List Byte) (pos : Nat) : (textFrames text pos).length = showFrameCount text pos := by
  by_cases beyond : 31 < pos
  · rw [textFrames_of_beyond beyond, showFrameCount, if_pos beyond, List.length_nil]
  · rw [textFrames, if_neg beyond, showFrameCount, if_neg beyond, List.length_cons, length_characterFrames, shownCount]
    dsimp only
    omega

theorem costOf_nibbleEvents (a : BusAddress) (v : Byte) : costOf (nibbleEvents a v) = ⟨5, 3, 1, 1, 0, 0, 0, 51⟩ := rfl

theorem costOf_frameEvents (a : BusAddress) (bl : Backlight) (f : LogicalWrite) :
    costOf (frameEvents a bl f) = frameCost 1 := rfl

theorem costOf_textFrames (a : BusAddress) (bl : Backlight) (text : List Byte) (pos : Nat) :
    costOf (framesEvents a bl (textFrames text pos)) = frameCost (showFrameCount text pos) := by
  rw [costOf_framesEvents, length_textFrames]

/-- CLEAR is 34 frames, whatever its blank is (rule R127, corner case (a)). -/
theorem showFrameCount_blanks (blank : Byte) : showFrameCount (List.replicate 32 blank) 0 = 34 := by
  rw [showFrameCount, List.length_replicate]
  rfl

theorem costOf_blankFrames (a : BusAddress) (bl : Backlight) (blank : Byte) :
    costOf (framesEvents a bl (textFrames (List.replicate 32 blank) 0)) = frameCost 34 := by
  rw [costOf_textFrames, showFrameCount_blanks]

/-- The cost of each state of the connect state machine (the table of rule R111). -/
def phaseCost : Phase → Cost
  | .unconnected | .ready => frameCost 0
  | .powerSettle => ⟨3, 1, 0, 0, 2, 0, 0, 100000⟩
  | .forceReset => ⟨18, 9, 3, 3, 0, 3, 0, 12453⟩
  | .fourBitSelect => ⟨6, 3, 1, 1, 0, 0, 1, 1051⟩
  | .functionSet | .displayControl | .entryModeSet => ⟨11, 6, 2, 2, 0, 0, 1, 1102⟩
  | .cleared => frameCost 34

theorem costOf_phaseEvents (c : Config) (a : BusAddress) (bl : Backlight) (ph : Phase) :
    costOf (phaseEvents c a bl ph) = phaseCost ph := by
  have force : costOf [.dus 4100] = ⟨1, 0, 0, 0, 0, 1, 0, 4100⟩ := rfl
  have config : costOf [.dus 1000] = ⟨1, 0, 0, 0, 0, 0, 1, 1000⟩ := rfl
  cases ph with
  | unconnected | ready => rfl
  | powerSettle => simp [phaseEvents, phaseCost, costOf, requestedMicros, Event.micros]
  | cleared => rw [phaseEvents, costOf_blankFrames, phaseCost]
  | forceReset | fourBitSelect =>
    simp only [phaseEvents, costOf_append, costOf_nibbleEvents, force, config]
    rfl
  | functionSet | displayControl | entryModeSet =>
    simp only [phaseEvents, costOf_append, costOf_frameEvents, config]
    rfl

/-- CONNECT costs the sum of the costs of its states (rules R111, R182 and R183). -/
theorem costOf_connectEvents (c : Config) (a : BusAddress) (bl : Backlight) :
    costOf (connectEvents c a bl) = ⟨400, 235, 78, 78, 2, 3, 4, 120278⟩ := by
  simp only [connectEvents, connectPhases, List.flatMap_cons, List.flatMap_nil, costOf_append, costOf_phaseEvents]
  rfl

/-- The cost of CONNECT, whatever BUSADDR holds at its start (rule R183). -/
theorem costOf_traceOf_connect (c : Config) (addr : Byte) (a : Option BusAddress) (bl : Backlight) :
    costOf (traceOf c (.connect addr) a bl) = tableCost (.connect addr) := by
  by_cases negative : addr.toInt < 0
  · rw [traceOf, if_pos negative, tableCost, if_pos negative]
    rfl
  · rw [traceOf, if_neg negative, tableCost, if_neg negative, costOf_connectEvents]

/-- With BUSADDR set every operation costs its row of the tables (rules R182 and R183). -/
theorem costOf_traceOf_set (c : Config) (i : Instr) (a : BusAddress) (bl : Backlight) :
    costOf (traceOf c i (some a) bl) = tableCost i := by
  cases i with
  | connect addr => exact costOf_traceOf_connect c addr (some a) bl
  | showstr pos text => exact costOf_textFrames a bl text pos.toNat
  | shownum pos v => exact costOf_textFrames a bl (decimalString v.toInt) pos.toNat
  | clear => exact costOf_blankFrames a bl c.charSpace
  | wrnib v => exact costOf_nibbleEvents a v
  | setbl b => exact costOf_framesEvents a b [(.command, 0x00)]
  | send _ _ | sendcmd _ | senddat _ | setcur _ _ => exact costOf_framesEvents a bl [_]

/-- Settles O38: the closed form of every operation costs its row, and with BUSADDR unset only CONNECT's is not
empty. -/
theorem costOfEveryOperation : Obligations.CostOfEveryOperation := by
  intro i s
  refine ⟨_, traceOf Params.spec i s.busAddr s.bl, exec_eq i s, by simp, ?_⟩
  cases ha : s.busAddr with
  | some a => rw [if_neg (by simp), costOf_traceOf_set]
  | none =>
    by_cases hi : ∀ addr, i ≠ .connect addr
    · rw [if_pos ⟨rfl, hi⟩, traceOf_unset fun addr h => absurd h (hi addr)]
      rfl
    · rw [if_neg fun h => hi h.2]
      obtain ⟨addr, rfl⟩ : ∃ addr, i = .connect addr := by simpa using hi
      exact costOf_traceOf_connect _ addr none s.bl

end Sys2Proof.Machine

/-! SUPPORT. Proofs of the family other: the two directions of the packet codec, the invariant of the step and the
agreement of the two views, what every operation's trace has in common, and the assembler's packets. -/

namespace Sys2Proof.Machine

open Sys2Proof.Claims

/-! ### The packet of a decoded command -/

/-- A byte is its two's complement value modulo 256 (rule R110's operand ADDR_IN). -/
theorem byte_eq_toInt_emod (b : Byte) : (b.toNat : Int) = b.toInt % 256 := by
  rw [BitVec.toInt_eq_toNat_bmod, show (256 : Int) = ((2 ^ 8 : Nat) : Int) from rfl, Int.bmod_emod]
  exact (Int.emod_eq_of_lt (Int.natCast_nonneg _) (Int.ofNat_lt.2 b.isLt)).symm

/-- Settles O42: `decode_encode`, and the packets with two-valued or signed operands read byte by byte. -/
theorem decodeOfEncode : Obligations.DecodeOfEncode :=
  ⟨fun _ => decode_encode, rfl, rfl, fun _ => ⟨rfl, rfl⟩,
    fun b => ⟨b, rfl, b.le_toInt, Int.le_of_lt_add_one b.toInt_lt, byte_eq_toInt_emod b⟩⟩

theorem backlight_byte_of_ofByte {b : Byte} {state : Backlight} (h : Backlight.ofByte b = some state) :
    state.byte = b := by
  unfold Backlight.ofByte at h
  split_ifs at h with off on
  · cases h; exact off.symm
  · cases h; exact on.symm

theorem regSel_byte_of_ofByte {b : Byte} {rs : RegSel} (h : RegSel.ofByte b = some rs) : rs.byte = b := by
  unfold RegSel.ofByte at h
  split_ifs at h with command data
  · cases h; exact command.symm
  · cases h; exact data.symm

/-- The bytes of the value four bytes make are those bytes (rule R56). -/
theorem bytes_word32OfBytes (v0 v1 v2 v3 : Byte) :
    [byteOfWord32 (word32OfBytes v0 v1 v2 v3) 0, byteOfWord32 (word32OfBytes v0 v1 v2 v3) 1,
      byteOfWord32 (word32OfBytes v0 v1 v2 v3) 2, byteOfWord32 (word32OfBytes v0 v1 v2 v3) 3] = [v0, v1, v2, v3] := by
  have := v0.isLt; have := v1.isLt; have := v2.isLt; have := v3.isLt
  simp only [List.cons.injEq, and_true]
  refine ⟨?_, ?_, ?_, ?_⟩ <;> apply BitVec.eq_of_toNat_eq <;>
    simp only [byteOfWord32, word32OfBytes, BitVec.toNat_ofNat] <;> omega

/-- Operand bytes that decode to a command are those of a well-formed command of that opcode: the format of each
opcode read backwards (rules R71 and R73). -/
theorem encodeOperands_of_decodeOperands {o : Op} {operands : List Byte} {i : Instr}
    (h : decodeOperands o operands = .cmd i) : i.wf = true ∧ i.op = o ∧ encodeOperands i = operands := by
  unfold decodeOperands at h
  split at h
  -- CONNECT, CLEAR, WRNIB, SENDCMD, SENDDAT and SETCUR, whose operand bytes pass no test but their number
  case h_1 | h_7 | h_11 | h_15 | h_17 | h_19 => cases h; exact ⟨rfl, rfl, rfl⟩
  case h_3 pos len text =>
    split_ifs at h with hlen
    cases h
    have fits : text.length ≤ 255 := by have := len.isLt; omega
    exact ⟨decide_eq_true fits, rfl, by simp [encodeOperands, hlen]⟩
  case h_5 pos v0 v1 v2 v3 => cases h; exact ⟨rfl, rfl, congrArg (pos :: ·) (bytes_word32OfBytes v0 v1 v2 v3)⟩
  case h_9 state =>
    split at h
    case h_1 b hb => cases h; exact ⟨rfl, rfl, congrArg ([·]) (backlight_byte_of_ofByte hb)⟩
    case h_2 => cases h
  case h_13 sel payload =>
    split at h
    case h_1 rs hrs => cases h; exact ⟨rfl, rfl, congrArg ([·, payload]) (regSel_byte_of_ofByte hrs)⟩
    case h_2 => cases h
  -- the rows of a wrong length
  all_goals cases h

theorem encode_of_decode {bs : List Byte} {i : Instr} (h : decode bs = .cmd i) : i.wf = true ∧ encode i = bs := by
  cases bs with
  | nil => cases h
  | cons opc operands =>
    cases ho : Op.ofByte opc with
    | none => simp [decode, ho] at h
    | some o =>
      rw [← op_code_of_ofByte ho, decode_code_cons] at h
      obtain ⟨hwf, rfl, rfl⟩ := encodeOperands_of_decodeOperands h
      exact ⟨hwf, congrArg (· :: _) (op_code_of_ofByte ho)⟩

/-- Settles O43: the opcode and the operand bytes are both read off the command. -/
theorem encodeOfDecode : Obligations.EncodeOfDecode := fun _ _ => encode_of_decode

/-! ### The invariant of the step -/

/-- The invariant without its last clause, that the block stands before an event: what every move keeps. -/
def State.Consistent (s : State) : Prop :=
  match s.running with
  | none => s.sessionConsistent = true
  | some o => s.operationConsistent o = true

theorem consistent_of_idle {s : State} (hr : s.running = none) :
    s.Consistent ↔ s.sessionConsistent = true := by
  simp only [State.Consistent, hr]

theorem consistent_of_running {s : State} {o : Operation} (hr : s.running = some o) :
    s.Consistent ↔ framesConsistent Params.spec o.frames = true ∧
      ∃ outer ∈ o.frames.getLast?, s.outerConsistent outer = true := by
  simp only [State.Consistent, hr, State.operationConsistent, Bool.and_eq_true]
  cases o.frames.getLast? <;> simp

/-- The invariant is consistency before an event or at rest. -/
theorem inv_iff (s : State) : s.Inv = true ↔ s.Consistent ∧ s.settled Params.spec = true := by
  unfold State.Inv State.Consistent
  cases hr : s.running with
  | none => simp [State.settled, hr]
  | some o => simp

theorem State.Consistent.sequencerOk {s : State} (h : s.Consistent) : s.SequencerOk Params.spec := fun _ ho =>
  ((consistent_of_running ho).1 h).1

/-! #### The registers behind the outermost rule -/

/-- Rule R30 is about BUSADDR and PHASE alone. -/
theorem sessionConsistent_congr {s t : State} (ha : t.busAddr = s.busAddr) (hp : t.phase = s.phase) :
    t.sessionConsistent = s.sessionConsistent := by
  simp only [State.sessionConsistent, ha, hp]

/-- So is what the outermost rule asks of the registers. -/
theorem outerConsistent_congr {s t : State} (ha : t.busAddr = s.busAddr) (hp : t.phase = s.phase) (f : Frame) :
    t.outerConsistent f = s.outerConsistent f := by
  cases f with
  | connect addr pos =>
    cases pos <;>
      simp only [State.outerConsistent, State.connectConsistent, State.boundTo, sessionConsistent_congr ha hp, ha, hp]
  | _ => exact sessionConsistent_congr ha hp

theorem outerConsistent_of_rank_lt {f : Frame} (h : f.rank < 6) (s : State) :
    s.outerConsistent f = s.sessionConsistent := by
  cases f with
  | connect _ _ => exact absurd h (Nat.lt_irrefl 6)
  | _ => rfl

theorem quiet_or_setbl_of_rank_lt {f : Frame} (h : f.rank < 6) : f.quiet = true ∨ ∃ b pos, f = .setbl b pos := by
  cases f with
  | connect _ _ => exact absurd h (Nat.lt_irrefl 6)
  | setbl b pos => exact .inr ⟨b, pos, rfl⟩
  | _ => exact .inl rfl

/-- No rule but CONNECT writes BUSADDR or PHASE (rule R120). -/
theorem applyMove_session {f : Frame} (h : f.rank < 6) (c : Config) (s : State) (o : Operation) (fs : List Frame) :
    (applyMove s o fs (f.move c s.busAddr s.bl)).busAddr = s.busAddr ∧
      (applyMove s o fs (f.move c s.busAddr s.bl)).phase = s.phase := by
  obtain quiet | ⟨b, pos, rfl⟩ := quiet_or_setbl_of_rank_lt h
  · obtain ⟨ha, -, hp⟩ := applyMove_quiet (move_quiet quiet c s.busAddr s.bl) s o fs
    exact ⟨ha, hp⟩
  · cases pos with
    | first => simp only [Frame.move, moveSetbl]; split <;> exact ⟨rfl, rfl⟩
    | second | leave => exact ⟨rfl, rfl⟩

/-! #### One move -/

/-- An operation in progress after a move has the rules the move leaves, at least one. -/
theorem frames_of_applyMove {s : State} {o o' : Operation} {fs : List Frame} {m : Move}
    (h : (applyMove s o fs m).running = some o') : o'.frames = m.frames fs ∧ o'.frames ≠ [] := by
  cases m with
  | ret =>
    cases fs with
    | nil => cases h
    | cons f fs => cases h; exact ⟨rfl, List.cons_ne_nil f fs⟩
  | _ => cases h; exact ⟨rfl, List.cons_ne_nil _ _⟩

/-- After a move the block is consistent when the rules the move leaves are, the outermost of them agrees with the
registers, and, where none is left, rule R30 holds. -/
theorem consistent_applyMove {s : State} {o : Operation} {fs : List Frame} {m : Move}
    (hframes : framesConsistent Params.spec (m.frames fs) = true)
    (hend : m.frames fs = [] → (applyMove s o fs m).sessionConsistent = true)
    (hlast : ∀ outer ∈ (m.frames fs).getLast?, (applyMove s o fs m).outerConsistent outer = true) :
    (applyMove s o fs m).Consistent := by
  cases hr : (applyMove s o fs m).running with
  | none =>
    have hleft := frames_applyMove s o fs m
    rw [State.frames, hr] at hleft
    exact (consistent_of_idle hr).2 (hend hleft.symm)
  | some o' =>
    obtain ⟨hf, hne⟩ := frames_of_applyMove hr
    rw [← hf] at hframes hlast
    have houter := List.getLast?_eq_some_getLast hne
    exact (consistent_of_running hr).2 ⟨hframes, _, houter, hlast _ houter⟩

/-- A move of a rule other than CONNECT writes neither register of rule R30, so whoever is outermost still agrees with
them. -/
theorem consistent_move_of_rank_lt {s : State} {o : Operation} {f : Frame} {fs : List Frame} (hrank : f.rank < 6)
    (hframes : framesConsistent Params.spec (f :: fs) = true)
    (hlast : ∀ outer ∈ (f :: fs).getLast?, s.outerConsistent outer = true) :
    (applyMove s o fs (f.move Params.spec s.busAddr s.bl)).Consistent := by
  obtain ⟨ha, hp⟩ := applyMove_session hrank Params.spec s o fs
  have hfits := ((framesConsistent_iff _ _).1 hframes).2 f (List.mem_cons_self ..)
  have hlayer := (move_ok Params.spec s.busAddr s.bl f hfits).2.1
  refine consistent_applyMove (move_consistent hframes s.busAddr s.bl).1 (fun hend => ?_) (fun outer hmem => ?_)
  · rw [sessionConsistent_congr ha hp]
    rw [move_frames_append] at hend
    obtain rfl := (List.append_eq_nil_iff.1 hend).2
    exact (outerConsistent_of_rank_lt hrank s).symm.trans (hlast f rfl)
  · rw [outerConsistent_congr ha hp]
    rw [move_frames_append] at hmem
    cases fs with
    | nil =>
      rw [List.append_nil] at hmem
      rw [outerConsistent_of_rank_lt (by rw [hlayer outer hmem]; exact hrank), ← outerConsistent_of_rank_lt hrank]
      exact hlast f rfl
    | cons g fs =>
      rw [List.getLast?_append_of_ne_nil _ (List.cons_ne_nil g fs)] at hmem
      exact hlast outer (by rwa [List.getLast?_cons_cons])

/-! #### One move of CONNECT's own rule -/

theorem boundTo_iff (s : State) (addr : Byte) :
    s.boundTo addr = true ↔ addressNegative addr = false ∧ s.busAddr = some (addressField addr) := by
  simp [State.boundTo]

/-- Once the address is bound, CONNECT stands where PHASE says (`ConnectPos.StandsIn`), or before it enters the first
state of its handshake, with the PHASE of the session before. -/
theorem connectConsistent_cases {s : State} {addr : Byte} {pos : ConnectPos} (hf : pos.fits = true)
    (h : s.connectConsistent addr pos = true) :
    (pos = .validate ∧ s.sessionConsistent = true) ∨ (pos = .bind ∧ addressNegative addr = false) ∨
      s.boundTo addr = true ∧ (pos = .enter .powerSettle ∨ pos.StandsIn s.phase) := by
  cases pos with
  | config ph | configWait ph =>
    simp only [State.connectConsistent, ConnectPos.fits, Bool.and_eq_true, decide_eq_true_eq] at h hf
    obtain ⟨hb, rfl⟩ := h
    have hlast : s.phase ≠ .ready := fun hr => by simp [hr] at hf
    exact .inr (.inr ⟨hb, .inr ⟨hlast, rfl⟩⟩)
  | _ => simp_all [State.connectConsistent, ConnectPos.StandsIn]

theorem connectConsistent_of_standsIn {s : State} {addr : Byte} {pos : ConnectPos} (hb : s.boundTo addr = true)
    (h : pos.StandsIn s.phase) : s.connectConsistent addr pos = true := by
  cases pos with
  | validate | bind => exact h.elim
  | enter ph => exact Bool.and_eq_true_iff.2 ⟨hb, decide_eq_true (.inr h)⟩
  | config ph | configWait ph => exact Bool.and_eq_true_iff.2 ⟨hb, decide_eq_true h.2.symm⟩
  | _ => exact Bool.and_eq_true_iff.2 ⟨hb, decide_eq_true h⟩

/-- CONNECT's rule goes on at a position that agrees with the registers the move leaves. -/
theorem consistent_connect_goes_on {s : State} {o : Operation} {m : Move} {addr : Byte} {pos : ConnectPos}
    (hframes : framesConsistent Params.spec (m.frames []) = true)
    (hlast : (m.frames []).getLast? = some (.connect addr pos))
    (h : (applyMove s o [] m).connectConsistent addr pos = true) : (applyMove s o [] m).Consistent := by
  refine consistent_applyMove hframes (fun hend => ?_) (fun outer hmem => ?_)
  · rw [hend] at hlast; cases hlast
  · rw [hlast] at hmem; cases hmem; exact h

/-- A move of CONNECT's own rule: it goes on where the registers it leaves say, or ends as rule R30 asks. -/
theorem consistent_move_of_connect {s : State} {o : Operation} {addr : Byte} {pos : ConnectPos}
    (hframes : framesConsistent Params.spec [.connect addr pos] = true)
    (h : s.connectConsistent addr pos = true) :
    (applyMove s o [] ((Frame.connect addr pos).move Params.spec s.busAddr s.bl)).Consistent := by
  have next := (move_consistent hframes s.busAddr s.bl).1
  have fits : pos.fits = true := ((framesConsistent_iff _ _).1 hframes).2 _ (List.mem_cons_self ..)
  rw [Frame.move] at next ⊢
  obtain ⟨rfl, session⟩ | ⟨rfl, nonneg⟩ | ⟨bound, rfl | stands⟩ := connectConsistent_cases fits h
  · cases sign : addressNegative addr with
    | true =>
      simp only [moveConnect, sign, if_true] at next ⊢
      exact consistent_applyMove next (fun _ => session) (fun _ hmem => by cases hmem)
    | false =>
      simp only [moveConnect, sign, Bool.false_eq_true, if_false] at next ⊢
      refine consistent_connect_goes_on (pos := .bind) next rfl ?_
      exact Bool.and_eq_true_iff.2 ⟨session, by rw [sign]; rfl⟩
  · refine consistent_connect_goes_on (pos := .enter .powerSettle) next rfl ?_
    exact Bool.and_eq_true_iff.2 ⟨(boundTo_iff _ _).2 ⟨nonneg, rfl⟩, rfl⟩
  · exact consistent_connect_goes_on (pos := .firstWait) next rfl (connectConsistent_of_standsIn bound rfl)
  · rw [((boundTo_iff s addr).1 bound).2] at next ⊢
    obtain ⟨pos', stands', ⟨e, hm⟩ | ⟨g, -, hm⟩⟩ | ⟨-, pos', stands', hm⟩ | ⟨ready, hm⟩ :=
      connect_move_cases Params.spec (addressField addr) s.bl addr stands <;> rw [hm] at next ⊢
    · cases e <;>
        exact consistent_connect_goes_on (pos := pos') next rfl (connectConsistent_of_standsIn bound stands')
    · exact consistent_connect_goes_on (pos := pos') next rfl (connectConsistent_of_standsIn bound stands')
    · exact consistent_connect_goes_on (pos := pos') next rfl (connectConsistent_of_standsIn bound stands')
    · refine consistent_applyMove next (fun _ => ?_) (fun _ hmem => by cases hmem)
      rw [sessionConsistent_iff]
      exact .inr ⟨ready, by simp [applyMove, ((boundTo_iff s addr).1 bound).2]⟩

/-! #### Every move -/

theorem advance_consistent {s : State} (h : s.Consistent) : (s.advance Params.spec).Consistent := by
  cases hr : s.running with
  | none => rwa [advance_of_none hr]
  | some o =>
    obtain ⟨hframes, outer, hmem, houter⟩ := (consistent_of_running hr).1 h
    cases hf : o.frames with
    | nil => simp [hf] at hmem
    | cons f fs =>
      rw [advance_of_frames hr hf]
      rw [hf] at hframes hmem
      have hlast : ∀ g ∈ (f :: fs).getLast?, s.outerConsistent g = true := fun g hg => by
        rwa [Option.mem_unique hg hmem]
      by_cases hrank : f.rank < 6
      · exact consistent_move_of_rank_lt hrank hframes hlast
      · obtain ⟨addr, pos, rfl⟩ : ∃ addr pos, f = .connect addr pos := by
          cases f with
          | connect addr pos => exact ⟨addr, pos, rfl⟩
          | _ => exact absurd (by simp [Frame.rank]) hrank
        obtain rfl : fs = [] := List.eq_nil_iff_forall_not_mem.2 fun g hg =>
          Nat.not_lt_of_le (rank_le_six g)
            ((List.pairwise_cons.1 ((framesConsistent_iff _ _).1 hframes).1).1 g hg)
        exact consistent_move_of_connect hframes (hlast _ rfl)

/-- What every move keeps, any number of moves keeps. -/
theorem Reaches.keeps {c : Config} {P : State → Prop} (hP : ∀ s, P s → P (s.advance c)) {s t : State}
    (h : Reaches c s t) (hs : P s) : P t := by
  obtain ⟨n, rfl⟩ := h
  induction n generalizing s with
  | zero => exact hs
  | succ n ih => exact ih (hP s hs)

/-- Settling a consistent block ends before an event or at rest, still consistent: the invariant holds. -/
theorem settle_inv {s : State} (h : s.Consistent) : (s.settle Params.spec).Inv = true :=
  (inv_iff _).2 ⟨(reaches_settle Params.spec s).keeps (fun _ hs => advance_consistent hs) h,
    (settle_settled h.sequencerOk).1⟩

/-! #### What a step can do -/

/-- What a step can do (Machine/Port.lean): wait or drop a malformed packet, be reset, run an operation whole, accept
one, or let the next event of one happen. -/
inductive StepTo (s : State) : State → Prop
  | waits (ins : List HostInput) (idle : s.running = none) : StepTo s (s.setInputs ins)
  | resets {n : Nat} {rest : List HostInput} (inputs : s.inputs = .reset n :: rest) (due : s.busy = false ∨ n = 0) :
    StepTo s (s.setInputs rest).resetBlock
  | runs {i : Instr} (rest : List HostInput) (idle : s.running = none) (wf : i.wf = true) :
    StepTo s ((registersAfter i (s.setInputs rest)).extend (traceOf Params.spec i s.busAddr s.bl))
  | accepts {i : Instr} (rest : List HostInput) (idle : s.running = none) (wf : i.wf = true) :
    StepTo s ((s.setInputs rest).accept Params.spec i)
  | ticks (ins : List HostInput) (busy : s.busy = true) : StepTo s ((s.setInputs ins).tick Params.spec)

theorem step_of_moved {s t : State} (h : s.fetch = .moved t) : step s = .next t := by rw [step, h]

theorem step_of_run {s t : State} {i : Instr} (h : s.fetch = .run i t) : step s = exec i t := by rw [step, h]

theorem fetch_of_busy {s : State} (busy : s.busy = true) : s.fetch = .moved (stepBusy s) := if_pos busy

theorem fetch_of_idle {s : State} (idle : s.running = none) : s.fetch = fetchIdle s :=
  if_neg (by simp [State.busy, idle])

theorem fetch_of_packet {s : State} {bytes : List Byte} {rest : List HostInput} (idle : s.running = none)
    (inputs : s.inputs = .packet bytes :: rest) : s.fetch = takePacket bytes (s.setInputs rest) := by
  rw [fetch_of_idle idle, fetchIdle, inputs]

theorem takePacket_operation {bytes : List Byte} {s : State} {i : Instr} (hd : decode bytes = .cmd i)
    (view : s.view = .operation) : takePacket bytes s = .run i s := by
  simp only [takePacket, hd, view]

theorem takePacket_event {bytes : List Byte} {s : State} {i : Instr} (hd : decode bytes = .cmd i)
    (view : s.view = .event) : takePacket bytes s = .moved (s.accept Params.spec i) := by
  simp only [takePacket, hd, view]

theorem takePacket_ignored {bytes : List Byte} {why : Malformed} (hd : decode bytes = .ignored why) (s : State) :
    takePacket bytes s = .moved s := by
  simp only [takePacket, hd]

/-- A packet offered to the idle block is dropped, run or accepted (rules R70 and R74). -/
theorem stepTo_of_packet {s t : State} {bytes : List Byte} {rest : List HostInput} (idle : s.running = none)
    (inputs : s.inputs = .packet bytes :: rest) (h : step s = .next t) : StepTo s t := by
  have fetch := fetch_of_packet idle inputs
  cases hd : decode bytes with
  | ignored why =>
    rw [takePacket_ignored hd] at fetch
    cases (step_of_moved fetch).symm.trans h
    exact .waits rest idle
  | cmd i =>
    have wf := (encode_of_decode hd).1
    cases view : s.view with
    | operation =>
      rw [takePacket_operation (s := s.setInputs rest) hd view] at fetch
      cases ((step_of_run fetch).trans (exec_eq i _)).symm.trans h
      exact .runs rest idle wf
    | event =>
      rw [takePacket_event (s := s.setInputs rest) hd view] at fetch
      cases (step_of_moved fetch).symm.trans h
      exact .accepts rest idle wf

/-- Every step does one of these. -/
theorem stepTo_of_step {s t : State} (h : step s = .next t) : StepTo s t := by
  cases busy : s.busy with
  | true =>
    cases (step_of_moved (fetch_of_busy busy)).symm.trans h
    unfold stepBusy
    split
    case h_1 inputs => exact .resets inputs (.inr rfl)
    case h_2 => exact .ticks _ busy
    case h_3 | h_4 => exact .ticks s.inputs busy
  | false =>
    have idle := busy_eq_false_iff.1 busy
    match inputs : s.inputs with
    | [] =>
      cases (step_of_idle_no_input idle inputs).symm.trans h
      exact .waits s.inputs idle
    | .packet bytes :: rest => exact stepTo_of_packet idle inputs h
    | .reset n :: rest =>
      have fetch : s.fetch = .moved (s.setInputs rest).resetBlock := by rw [fetch_of_idle idle, fetchIdle, inputs]
      cases (step_of_moved fetch).symm.trans h
      exact .resets inputs (.inl busy)

/-! #### The invariant along a step -/

/-- An operation run whole leaves rule R30: CONNECT ends Ready at an address, and no other operation writes BUSADDR or
PHASE. -/
theorem sessionConsistent_registersAfter {s : State} (h : s.sessionConsistent = true) (i : Instr) :
    (registersAfter i s).sessionConsistent = true := by
  cases i with
  | connect addr =>
    by_cases negative : addr.toInt < 0
    · rwa [registersAfter, if_pos negative]
    · rw [registersAfter, if_neg negative, sessionConsistent_iff]
      exact .inr ⟨rfl, Option.some_ne_none _⟩
  | _ => exact h

/-- A packet's operation starts consistent: one rule, its latches in range, the registers as between operations. -/
theorem consistent_start {s : State} (h : s.sessionConsistent = true) {i : Instr} (wf : i.wf = true) :
    (s.setRunning (some (Operation.start i))).Consistent := by
  have frames : framesConsistent Params.spec [Frame.start i] = true := by
    simp [framesConsistent_iff, start_fits wf]
  refine (consistent_of_running rfl).2 ⟨frames, _, rfl, ?_⟩
  cases i <;> exact h

/-- Settles O55: moves keep the invariant without its last clause, settling adds that clause, and the other steps leave
the block at rest with the registers of rule R30. -/
theorem stepKeepsInvariant : Obligations.StepKeepsInvariant := by
  intro s t hinv hstep
  obtain ⟨consistent, -⟩ := (inv_iff s).1 hinv
  have session (idle : s.running = none) : s.sessionConsistent = true := (consistent_of_idle idle).1 consistent
  cases stepTo_of_step hstep with
  | waits ins idle => exact (inv_of_idle (s := s.setInputs ins) idle).trans (session idle)
  | resets => rfl
  | runs rest idle wf =>
    rw [inv_of_idle (by simp [idle])]
    exact sessionConsistent_registersAfter (s := s.setInputs rest) (session idle) _
  | accepts rest idle wf => exact settle_inv (consistent_start (s := s.setInputs rest) (session idle) wf)
  | ticks ins busy => exact settle_inv (advance_consistent (s := s.setInputs ins) consistent)

/-! ### One step from the port -/

/-- Settles O50: the packet is taken, and the operation view runs what it decodes to. -/
theorem stepRunsDecodedInstruction : Obligations.StepRunsDecodedInstruction := fun s _ _ rest idle view inputs hd =>
  step_of_run ((fetch_of_packet idle inputs).trans (takePacket_operation (s := s.setInputs rest) hd view))

/-- Settles O2: idle or busy, the port answers a due reset with the reset block. -/
theorem resetInputForcesResetState : Obligations.ResetInputForcesResetState := by
  intro s n rest inputs due
  refine ⟨(s.setInputs rest).resetBlock, step_of_moved ?_, rfl, rfl, rfl, rfl, rfl, rfl, rfl, rfl⟩
  cases busy : s.busy with
  | false => rw [fetch_of_idle (busy_eq_false_iff.1 busy), fetchIdle, inputs]
  | true =>
    obtain rfl : n = 0 := due.resolve_left (by simp [busy])
    rw [fetch_of_busy busy, stepBusy, inputs]

/-- Settles O56: the reset state is idle with the registers of rule R30. -/
theorem resetMeetsInvariant : Obligations.ResetMeetsInvariant :=
  (inv_of_idle rfl).trans (sessionConsistent_iff.2 (.inl ⟨rfl, rfl⟩))

/-! ### What moves keep -/

/-- An advance is no move at all, or one move of the operation in progress. -/
theorem advance_eq_self_or_applyMove (c : Config) (s : State) :
    s.advance c = s ∨ ∃ o fs m, s.running = some o ∧ s.advance c = applyMove s o fs m := by
  cases hr : s.running with
  | none => exact .inl (advance_of_none hr)
  | some o =>
    cases hf : o.frames with
    | nil => exact .inr ⟨o, [], .ret, rfl, advance_of_nil hr hf⟩
    | cons f fs => exact .inr ⟨o, fs, _, rfl, advance_of_frames hr hf⟩

theorem applyMove_interface (s : State) (o : Operation) (fs : List Frame) (m : Move) :
    (applyMove s o fs m).inputs = s.inputs ∧ (applyMove s o fs m).view = s.view := by
  cases m with
  | emit e f => cases e <;> exact ⟨rfl, rfl⟩
  | _ => exact ⟨rfl, rfl⟩

/-- A move leaves BUSADDR, or binds an address to it: none unsets it (rule R21). -/
theorem applyMove_busAddr (s : State) (o : Operation) (fs : List Frame) (m : Move) :
    (applyMove s o fs m).busAddr = s.busAddr ∨ (applyMove s o fs m).busAddr ≠ none := by
  cases m with
  | bindAddr a f => exact .inr (Option.some_ne_none a)
  | emit e f => cases e <;> exact .inl rfl
  | _ => exact .inl rfl

/-- Moves leave the pending inputs and the view to the port. -/
theorem Reaches.interface {c : Config} {s t : State} (h : Reaches c s t) : t.inputs = s.inputs ∧ t.view = s.view := by
  refine h.keeps (P := fun u => u.inputs = s.inputs ∧ u.view = s.view) (fun u ⟨hi, hv⟩ => ?_) ⟨rfl, rfl⟩
  obtain hu | ⟨o, fs, m, -, hu⟩ := advance_eq_self_or_applyMove c u
  · rw [hu]; exact ⟨hi, hv⟩
  · obtain ⟨hi', hv'⟩ := applyMove_interface u o fs m
    rw [hu]
    exact ⟨hi'.trans hi, hv'.trans hv⟩

theorem Reaches.busAddr_ne_none {c : Config} {s t : State} (h : Reaches c s t) (hs : s.busAddr ≠ none) :
    t.busAddr ≠ none := by
  refine h.keeps (P := fun u => u.busAddr ≠ none) (fun u hu => ?_) hs
  obtain ha | ⟨o, fs, m, -, ha⟩ := advance_eq_self_or_applyMove c u <;> rw [ha]
  · exact hu
  · obtain keeps | binds := applyMove_busAddr u o fs m
    · rwa [keeps]
    · exact binds

/-- Settles O51: the event view's port, and a tick, which is moves. -/
theorem busyBlockHoldsOffPackets : Obligations.BusyBlockHoldsOffPackets := by
  constructor
  · intro s bs i rest idle view inputs hd
    exact step_of_moved ((fetch_of_packet idle inputs).trans (takePacket_event (s := s.setInputs rest) hd view))
  · intro s busy noReset
    have held : stepBusy s = s.tick Params.spec := by
      unfold stepBusy
      split
      case h_1 inputs | h_2 inputs => exact absurd inputs (noReset _ _)
      all_goals rfl
    exact ⟨_, step_of_moved (fetch_of_busy busy), held, held ▸ (reaches_tick Params.spec s).interface⟩

/-- An operation leaves BUSADDR, or binds an address to it (rule R21). -/
theorem registersAfter_busAddr (i : Instr) (s : State) :
    (registersAfter i s).busAddr = s.busAddr ∨ (registersAfter i s).busAddr ≠ none := by
  cases i with
  | connect addr => by_cases negative : addr.toInt < 0 <;> simp [registersAfter, negative]
  | _ => exact .inl rfl

/-- Settles O54: of the things a step can do, only a reset unsets BUSADDR. -/
theorem onlyResetUnsetsAddress : Obligations.OnlyResetUnsetsAddress := by
  intro s t hstep hs ht
  cases stepTo_of_step hstep with
  | resets inputs due => exact ⟨_, _, inputs, due, rfl⟩
  | waits ins idle => exact absurd ht hs
  | @runs i rest idle wf =>
    obtain keeps | binds := registersAfter_busAddr i (s.setInputs rest)
    · exact absurd (keeps.symm.trans ht) hs
    · exact absurd ht binds
  | @accepts i rest idle wf =>
    exact absurd ht ((reaches_settle Params.spec ((s.setInputs rest).setRunning _)).busAddr_ne_none hs)
  | ticks ins busy => exact absurd ht ((reaches_tick Params.spec (s.setInputs ins)).busAddr_ne_none hs)

/-! ### The two views -/

/-- Settles O52: the sequencer runs an operation to the state the operation answers, one event a tick. -/
theorem eventViewRefinesOperationView : Obligations.EventViewRefinesOperationView := by
  intro i s wf idle
  have closed := exec_eq i s
  have fits := start_fits wf Params.spec
  have completes := start_completes closed
  have ended := (exec_running closed).trans idle
  have trace : ((registersAfter i s).extend (traceOf Params.spec i s.busAddr s.bl)).trace =
      s.trace ++ traceOf Params.spec i s.busAddr s.bl := by simp
  obtain ⟨ends, busy⟩ := accept_ticks_end fits completes ended trace
  exact ⟨_, _, closed, trace, ends, busy_eq_false_iff.2 ended,
    fun k hk => ⟨busy k hk, accept_ticks_trace fits completes ended trace hk.le⟩⟩

/-! ### The sequencer position -/

/-- The latch OPC holds `opc`, and the count of events is that of the trace since it had `start` events. -/
def State.CountsFrom (opc : Byte) (start : Nat) (s : State) : Prop :=
  ∀ o, s.running = some o → o.opc = opc ∧ s.log.length = start + o.emitted

/-- A move keeps the opcode latched, and counts the event it emits, if any (rule R26). -/
theorem applyMove_countsFrom {opc : Byte} {start : Nat} {s : State} {o : Operation} (hopc : o.opc = opc)
    (hlog : s.log.length = start + o.emitted) (fs : List Frame) (m : Move) :
    (applyMove s o fs m).CountsFrom opc start := by
  intro o' ho'
  cases m with
  | emit e f =>
    cases ho'
    have grows : (s.perform e).log.length = s.log.length + 1 := by cases e <;> rfl
    exact ⟨hopc, by simpa [applyMove, grows, hlog] using Nat.add_assoc ..⟩
  | ret =>
    cases fs with
    | nil => cases ho'
    | cons f fs => cases ho'; exact ⟨hopc, hlog⟩
  | _ => cases ho'; exact ⟨hopc, hlog⟩

theorem Reaches.countsFrom {c : Config} {opc : Byte} {start : Nat} {s t : State} (h : Reaches c s t)
    (hs : s.CountsFrom opc start) : t.CountsFrom opc start := by
  refine h.keeps (fun u hu => ?_) hs
  obtain ha | ⟨o, fs, m, ho, ha⟩ := advance_eq_self_or_applyMove c u <;> rw [ha]
  · exact hu
  · obtain ⟨hopc, hlog⟩ := hu o ho
    exact applyMove_countsFrom hopc hlog fs m

/-- A block still busy after `k` ticks was busy before each of them. -/
theorem busy_before_ticks {c : Config} {s : State} {k : Nat} (h : (s.ticks c k).busy = true) :
    ∀ m < k, (s.ticks c m).busy = true := by
  induction k with
  | zero => simp
  | succ k ih =>
    have before : (s.ticks c k).busy = true := by
      by_contra idle
      have stays := (reaches_tick c (s.ticks c k)).eq_of_idle (busy_eq_false_iff.1 (by simpa using idle))
      exact idle (stays ▸ h)
    intro m hm
    obtain hm | rfl := Nat.lt_succ_iff_lt_or_eq.1 hm
    · exact ih before m hm
    · exact before

/-- Seven layers of rules, each active at most once (rule R26). -/
theorem length_le_seven {c : Config} {fs : List Frame} (h : framesConsistent c fs = true) : fs.length ≤ 7 := by
  have layers : (fs.map Frame.rank).Nodup := List.pairwise_map.2 (((framesConsistent_iff c fs).1 h).1.imp Nat.ne_of_lt)
  have within : fs.map Frame.rank ⊆ List.range 7 := by
    intro r hr
    obtain ⟨f, -, rfl⟩ := List.mem_map.1 hr
    exact List.mem_range.2 (Nat.lt_succ_of_le (rank_le_six f))
  simpa using (layers.subperm within).length_le

/-- Settles O53: the moves keep the opcode and count events, and a block before an event has an active rule. -/
theorem sequencerPosition : Obligations.SequencerPosition := by
  intro i s k o wf idle ho
  obtain ⟨settled, ok⟩ := accept_settled (s := s) (start_fits wf Params.spec)
  have way := (accept_reaches Params.spec i s).trans (reaches_ticks Params.spec k _)
  obtain ⟨hopc, hlog⟩ := way.countsFrom (start := s.log.length) (opc := i.op.code)
    (fun _ h => by cases h; exact ⟨rfl, rfl⟩) o ho
  have busy : ((s.accept Params.spec i).ticks Params.spec k).busy = true := by rw [State.busy, ho]; rfl
  have count := ticks_log_length ok settled (busy_before_ticks busy)
  have accepted : (s.accept Params.spec i).log = s.log := settle_log _ _
  rw [accepted] at count
  obtain ⟨settled', ok'⟩ := ticks_settled ok settled k
  obtain ⟨f, fs, -, -, hf, -⟩ := settled_emits settled' ho
  exact ⟨hopc, by omega, by simp [hf], length_le_seven (ok' o ho)⟩

/-! ### PHASE is read by no rule -/

section
variable {c : Config} {R : State → State → Prop}
  (reads : ∀ s t, R s t → t.running = s.running ∧ t.busAddr = s.busAddr ∧ t.bl = s.bl)
  (moves : ∀ s t o fs m, R s t → R (applyMove s o fs m) (applyMove t o fs m)) {s t : State}
include reads moves

/-- States that agree in what the sequencer reads make the same move. -/
theorem advance_related (h : R s t) : R (s.advance c) (t.advance c) := by
  obtain ⟨hrun, haddr, hbl⟩ := reads s t h
  cases hr : s.running with
  | none => rwa [advance_of_none hr, advance_of_none (hrun.trans hr)]
  | some o =>
    cases hf : o.frames with
    | nil =>
      rw [advance_of_nil hr hf, advance_of_nil (hrun.trans hr) hf]
      exact moves s t o [] .ret h
    | cons f fs =>
      rw [advance_of_frames hr hf, advance_of_frames (hrun.trans hr) hf, haddr, hbl]
      exact moves s t o fs _ h

theorem tick_related_of_moves (h : R s t) : R (s.tick c) (t.tick c) := by
  refine tick_related (fun _ _ h => advance_related reads moves h) (fun s t h => ?_) h
  obtain ⟨hrun, haddr, hbl⟩ := reads s t h
  simp only [State.settled, State.nextMove, hrun, haddr, hbl]

end

/-- `t` is `s` with another value in PHASE. -/
def DiffersInPhase (s t : State) : Prop := ∃ ph, t = s.setPhase ph

theorem applyMove_differsInPhase (s t : State) (o : Operation) (fs : List Frame) (m : Move)
    (h : DiffersInPhase s t) : DiffersInPhase (applyMove s o fs m) (applyMove t o fs m) := by
  obtain ⟨ph, rfl⟩ := h
  cases m with
  | writePhase ph' f => exact ⟨ph', rfl⟩
  | emit e f => cases e <;> exact ⟨ph, rfl⟩
  | _ => exact ⟨ph, rfl⟩

theorem registersAfter_differsInPhase (i : Instr) (s : State) (ph : Phase) :
    DiffersInPhase (registersAfter i s) (registersAfter i (s.setPhase ph)) := by
  cases i with
  | connect addr =>
    by_cases negative : addr.toInt < 0
    · simp only [registersAfter, if_pos negative]; exact ⟨ph, rfl⟩
    · simp only [registersAfter, if_neg negative]; exact ⟨.ready, rfl⟩
  | _ => exact ⟨ph, rfl⟩

/-- Settles O41: an operation is its closed form, which reads BUSADDR and BL alone, and so do the sequencer's moves. -/
theorem phaseIsNeverRead : Obligations.PhaseIsNeverRead := by
  intro s ph
  refine ⟨fun i => ?_, tick_related_of_moves (R := DiffersInPhase) ?_ applyMove_differsInPhase ⟨ph, rfl⟩⟩
  · obtain ⟨ph', h⟩ := registersAfter_differsInPhase i s ph
    exact ⟨_, ph', exec_eq i s, by rw [exec_eq, h]; rfl⟩
  · rintro s _ ⟨ph, rfl⟩
    exact ⟨rfl, rfl, rfl⟩

/-! ### Every operation -/

/-- Settles O30: the closed form of each operation. -/
theorem everyOperationInClosedForm : Obligations.EveryOperationInClosedForm := exec_eq

/-- The registers an operation writes are its own rule's: CONNECT's BUSADDR and PHASE, and SETBL's BL. -/
theorem registersAfter_frame (i : Instr) (s : State) :
    (registersAfter i s).answers = s.answers ∧ (registersAfter i s).inputs = s.inputs ∧
    (registersAfter i s).view = s.view ∧
    ((∀ addr, i ≠ .connect addr) → (registersAfter i s).busAddr = s.busAddr ∧ (registersAfter i s).phase = s.phase) ∧
    ((∀ b, i ≠ .setbl b) → (registersAfter i s).bl = s.bl) := by
  cases i with
  | connect addr =>
    by_cases negative : addr.toInt < 0 <;> simp [registersAfter, negative]
  | setbl b => exact ⟨rfl, rfl, rfl, fun _ => ⟨rfl, rfl⟩, fun h => absurd rfl (h b)⟩
  | _ => exact ⟨rfl, rfl, rfl, fun _ => ⟨rfl, rfl⟩, fun _ => rfl⟩

/-- Settles O32: the events come on top of the registers, and of those each operation writes its rule's. -/
theorem registersOnlyTheirWriterChanges : Obligations.RegistersOnlyTheirWriterChanges := by
  intro i s
  obtain ⟨answers, inputs, view, session, bl⟩ := registersAfter_frame i s
  exact ⟨_, traceOf Params.spec i s.busAddr s.bl, exec_eq i s, by simp, by simp [answers], by simp, inputs, view,
    session, bl⟩

/-- The registers an operation writes do not depend on the trace. -/
theorem registersAfter_extend (i : Instr) (s : State) (evs : List Event) :
    registersAfter i (s.extend evs) = (registersAfter i s).extend evs := by
  cases i with
  | connect addr => simp only [registersAfter]; split <;> rfl
  | _ => rfl

/-- No operation's events depend on those before it: no cursor is remembered (10_state.md section 2). -/
theorem programTrace_extend (is : List Instr) (s : State) (evs : List Event) :
    programTrace is (s.extend evs) = programTrace is s := by
  induction is generalizing s with
  | nil => rfl
  | cons i is ih => rw [programTrace, registersAfter_extend, ih, programTrace, State.extend_busAddr, State.extend_bl]

/-- Settles O37, by induction on the list: each operation appends its closed form and leaves the next its registers. -/
theorem tracesConcatenate : Obligations.TracesConcatenate := by
  intro is
  induction is with
  | nil => exact fun s => ⟨s, rfl, (List.append_nil _).symm⟩
  | cons i is ih =>
    intro s
    obtain ⟨t, run, trace⟩ := ih ((registersAfter i s).extend (traceOf Params.spec i s.busAddr s.bl))
    refine ⟨t, by rw [runAll, exec_eq]; exact run, ?_⟩
    rw [trace, State.extend_trace, registersAfter_trace, List.append_assoc, programTrace_extend, programTrace]

/-! ### The address of every write -/

/-- Every bus write of a trace goes to `a`. -/
def WritesTo (a : BusAddress) (evs : List Event) : Prop := EveryWrite (fun w => w.1 = a) evs

theorem framesEvents_writesTo (a : BusAddress) (bl : Backlight) (fs : List LogicalWrite) :
    WritesTo a (framesEvents a bl fs) :=
  everyWrite_flatMap (fun f => by simp [frameEvents]) fs

theorem phaseEvents_writesTo (c : Config) (a : BusAddress) (bl : Backlight) (ph : Phase) :
    WritesTo a (phaseEvents c a bl ph) := by
  cases ph with
  | cleared => exact framesEvents_writesTo a bl _
  | _ => simp [WritesTo, phaseEvents, frameEvents]

theorem connectEvents_writesTo (c : Config) (a : BusAddress) (bl : Backlight) : WritesTo a (connectEvents c a bl) :=
  everyWrite_flatMap (phaseEvents_writesTo c a bl) connectPhases

theorem guardedFrames_writes (a : Option BusAddress) (bl : Backlight) (fs : List LogicalWrite) :
    EveryWrite (fun w => a = some w.1) (guardedFrames a bl fs) := by
  cases a with
  | none => exact everyWrite_nil
  | some a => exact fun w hw => congrArg some (framesEvents_writesTo a bl fs w hw).symm

/-- Every write of an operation goes to the address it leaves in BUSADDR (rules R41 and R48). -/
theorem traceOf_writes (c : Config) (i : Instr) (s : State) :
    EveryWrite (fun w => (registersAfter i s).busAddr = some w.1) (traceOf c i s.busAddr s.bl) := by
  cases i with
  | connect addr =>
    by_cases negative : addr.toInt < 0
    · simp [traceOf, negative]
    · rw [traceOf, if_neg negative, registersAfter, if_neg negative]
      exact fun w hw => congrArg some (connectEvents_writesTo c _ s.bl w hw).symm
  | wrnib v => cases ha : s.busAddr <;> simp [traceOf, registersAfter, ha]
  | _ => exact guardedFrames_writes _ _ _

/-- Settles O36: appending events leaves BUSADDR as the operation's rule does. -/
theorem writesGoToBoundAddress : Obligations.WritesGoToBoundAddress := fun i s =>
  ⟨_, traceOf Params.spec i s.busAddr s.bl, exec_eq i s, by simp, traceOf_writes Params.spec i s⟩

/-- CONNECT with a non-negative address in one line (rule R110). -/
theorem exec_connect {addr : Byte} (h : 0 ≤ addr.toInt) (s : State) :
    exec (.connect addr) s =
      .next (((s.setBusAddr (addr.truncate 7)).setPhase .ready).extend
        (connectEvents Params.spec (addr.truncate 7) s.bl)) := by
  rw [exec_eq, registersAfter, if_neg (Int.not_lt.2 h), traceOf, if_neg (Int.not_lt.2 h)]

/-- Settles O18: what CONNECT does is its closed form, which overwrites BUSADDR and PHASE and reads neither. -/
theorem reconnectOverwritesAddress : Obligations.ReconnectOverwritesAddress := fun addr s old ph h =>
  ⟨_, connectEvents Params.spec (addr.truncate 7) s.bl, exec_connect h s,
    exec_connect h { s with busAddr := old, phase := ph }, rfl, rfl, rfl, State.extend_trace _ _,
    length_connectEvents _ _ _, connectEvents_writesTo _ _ _⟩

/-! ### The separations of the enable pulse -/

/-- A trace that keeps the separations of rule R173 from a low enable line on, and leaves the line low: it may stand
before any other that keeps them. -/
def Strobes (evs : List Event) : Prop :=
  ∀ rest, strobesTimed false (evs ++ rest) = strobesTimed false rest

theorem strobes_nil : Strobes [] := fun _ => rfl

theorem Strobes.append {xs ys : List Event} (hx : Strobes xs) (hy : Strobes ys) : Strobes (xs ++ ys) := fun rest => by
  rw [List.append_assoc, hx, hy]

theorem strobes_flatMap {α : Type} {f : α → List Event} (h : ∀ x, Strobes (f x)) (xs : List α) :
    Strobes (xs.flatMap f) := by
  induction xs with
  | nil => exact strobes_nil
  | cons x xs ih => exact (h x).append ih

theorem strobes_dus (n : Nat) : Strobes [.dus n] := fun _ => rfl

theorem strobes_dms (n : Nat) : Strobes [.dms n] := fun _ => rfl

theorem strobes_low {v : Byte} (h : v[2] = false) (a : BusAddress) : Strobes [.w a v] := fun rest => by
  simp [strobesTimed, h]

/-- A nibble transmission waits T_EN with the enable bit set and T_NIB once it is clear again (rule R90). -/
theorem strobes_nibbleEvents (a : BusAddress) (v : Byte) : Strobes (nibbleEvents a v) := fun rest => by
  simp [nibbleEvents, strobesTimed]

theorem strobes_frameEvents (a : BusAddress) (bl : Backlight) (f : LogicalWrite) : Strobes (frameEvents a bl f) :=
  (strobes_nibbleEvents a _).append (strobes_nibbleEvents a _)

theorem strobes_guardedFrames (a : Option BusAddress) (bl : Backlight) (fs : List LogicalWrite) :
    Strobes (guardedFrames a bl fs) := by
  cases a with
  | none => exact strobes_nil
  | some a => exact strobes_flatMap (strobes_frameEvents a bl) fs

theorem strobes_phaseEvents (c : Config) (a : BusAddress) (bl : Backlight) (ph : Phase) :
    Strobes (phaseEvents c a bl ph) := by
  cases ph with
  | unconnected | ready => exact strobes_nil
  | powerSettle =>
    exact (strobes_dms 50).append ((strobes_low (by cases bl <;> rfl) a).append (strobes_dms 50))
  | forceReset =>
    have once := (strobes_nibbleEvents a (0x30 ||| initBacklight c bl)).append (strobes_dus 4100)
    exact (once.append once).append once
  | fourBitSelect => exact (strobes_nibbleEvents a _).append (strobes_dus 1000)
  | functionSet | displayControl | entryModeSet => exact (strobes_frameEvents a bl _).append (strobes_dus 1000)
  | cleared => exact strobes_flatMap (strobes_frameEvents a bl) _

theorem strobes_traceOf (c : Config) (i : Instr) (a : Option BusAddress) (bl : Backlight) :
    Strobes (traceOf c i a bl) := by
  cases i with
  | connect addr =>
    by_cases negative : addr.toInt < 0
    · rw [traceOf, if_pos negative]; exact strobes_nil
    · rw [traceOf, if_neg negative]; exact strobes_flatMap (strobes_phaseEvents c _ bl) connectPhases
  | wrnib v =>
    cases a with
    | none => exact strobes_nil
    | some a => exact strobes_nibbleEvents a v
  | _ => exact strobes_guardedFrames _ _ _

/-- Settles O39: every trace is made of nibble transmissions, waits and the raw backlight byte. -/
theorem enablePulsesKeepTheirTimes : Obligations.EnablePulsesKeepTheirTimes := fun i s =>
  ⟨_, traceOf Params.spec i s.busAddr s.bl, exec_eq i s, by simp, by
    simpa [strobesTimed] using strobes_traceOf Params.spec i s.busAddr s.bl []⟩

/-! ### The display -/

/-- The character of a data frame, none for a command. -/
def dataByte (f : LogicalWrite) : Option Byte := if f.1 = .data then some f.2 else none

/-- SHOWSTR's frames on the display: the cursor command, then those of the character loop (rule R123). -/
theorem textFrames_of_le {pos : Nat} (h : pos ≤ 31) (text : List Byte) :
    textFrames text pos = (.command, positionCommand pos) :: loopFrames pos 0 text := by
  rw [textFrames, if_neg (Nat.not_lt_of_le h), loopFrames_eq]
  simp [shownCount]

/-- The loop's data frames are the characters up to the last cell. -/
theorem filterMap_dataByte_loopFrames (pos i : Nat) (text : List Byte) :
    (loopFrames pos i text).filterMap dataByte = text.take (32 - (pos + i)) := by
  induction text generalizing i with
  | nil => simp [loopFrames]
  | cons ch rest ih =>
    by_cases h : 31 < pos + i
    · rw [loopFrames, if_pos h, Nat.sub_eq_zero_of_le h]
      rfl
    · have room : 32 - (pos + i) = (32 - (pos + (i + 1))) + 1 := by omega
      have reset : (if pos + i = 16 ∧ i ≠ 0 then [(RegSel.command, (0xC0 : Byte))] else []).filterMap dataByte = [] := by
        split <;> rfl
      have sent : dataByte (.data, ch) = some ch := rfl
      rw [loopFrames, if_neg h, List.filterMap_append, reset, List.nil_append, List.filterMap_cons_some sent, ih, room,
        List.take_succ_cons]

/-- The loop's commands are cursor re-sets to the start of line 1. -/
theorem mem_loopFrames {pos i : Nat} {text : List Byte} {f : LogicalWrite} (h : f ∈ loopFrames pos i text) :
    f.1 = .data ∨ f = (.command, 0xC0) := by
  induction text generalizing i with
  | nil => cases h
  | cons ch rest ih =>
    unfold loopFrames at h
    split at h
    · cases h
    · obtain h | h := List.mem_append.1 h
      · split at h
        · exact .inr (List.mem_singleton.1 h)
        · cases h
      · obtain rfl | h := List.mem_cons.1 h
        · exact .inl rfl
        · exact ih h

theorem filterMap_dataByte_textFrames (text : List Byte) (pos : Nat) :
    (textFrames text pos).filterMap dataByte = text.take (32 - pos) := by
  by_cases beyond : 31 < pos
  · rw [textFrames_of_beyond beyond, Nat.sub_eq_zero_of_le beyond]
    rfl
  · rw [textFrames_of_le (Nat.le_of_not_lt beyond), List.filterMap_cons_none rfl, filterMap_dataByte_loopFrames,
      Nat.add_zero]

/-- A cursor command of one of the two lines (rule R49). -/
def OnALine (b : Byte) : Prop := 0x80 ≤ b.toNat ∧ b.toNat ≤ 0x8F ∨ 0xC0 ≤ b.toNat ∧ b.toNat ≤ 0xCF

theorem positionCommand_onALine {p : Nat} (h : p ≤ 31) : OnALine (positionCommand p) := by
  unfold positionCommand OnALine
  split <;> simp only [BitVec.toNat_ofNat] <;> omega

/-- Every frame of SHOWSTR is data or a command of one of the two lines. -/
theorem mem_textFrames {text : List Byte} {pos : Nat} {f : LogicalWrite} (h : f ∈ textFrames text pos) :
    f.1 = .data ∨ f.1 = .command ∧ OnALine f.2 := by
  by_cases beyond : 31 < pos
  · rw [textFrames_of_beyond beyond] at h
    cases h
  · have inside := Nat.le_of_not_lt beyond
    rw [textFrames_of_le inside] at h
    obtain rfl | h := List.mem_cons.1 h
    · exact .inr ⟨rfl, positionCommand_onALine inside⟩
    · obtain data | rfl := mem_loopFrames h
      · exact .inl data
      · exact .inr ⟨rfl, positionCommand_onALine (p := 16) (by decide)⟩

/-- Settles O24: the framed view of SHOWSTR is its frames. -/
theorem textStaysOnDisplay : Obligations.TextStaysOnDisplay := by
  intro pos text s a ha
  obtain ⟨t, evs, hexec, trace, view⟩ := showstrFramedView pos text s a ha
  refine ⟨t, evs, hexec, trace, ?_, ?_⟩
  · rw [view, List.filterMap_map, ← filterMap_dataByte_textFrames]
    congr 1
    funext f
    obtain ⟨rs, p⟩ := f
    cases rs <;> rfl
  · rw [view]
    intro tok htok
    obtain ⟨f, hf, rfl⟩ := List.mem_map.1 htok
    obtain ⟨rs, p⟩ := f
    obtain rfl | ⟨rfl, range⟩ := mem_textFrames hf
    · exact .inl ⟨p, rfl⟩
    · exact .inr ⟨p, rfl, range⟩

/-! ### The order of SHOWSTR's tests not taken -/

/-- At index 32 the line test of the order not taken fires (decision D7). -/
theorem lineReset_beyond {i : Nat} (h : i ≠ 0) (s : State) :
    lineReset i 32 s = s.extend (guardedFrames s.busAddr s.bl [(.command, 0xC0)]) := by
  rw [lineReset, if_pos (by simp [crossesLine, columnOf, Params.cols, h]), setCur_eq]
  rfl

/-- The character loop in one line, with the order of tests the spec does not take. -/
theorem showLoop_otherOrder {c : Config} (hc : c.stopBeforeWrap = false) {pos : Nat} (hp : pos ≤ 31)
    (text : List Byte) (i : Nat) (hi : pos + i ≤ 32) (s : State) :
    showLoop c pos i text s =
      s.extend (guardedFrames s.busAddr s.bl
        (loopFrames pos i text ++ if 32 < pos + i + text.length then [(.command, 0xC0)] else [])) := by
  induction text generalizing i s with
  | nil => simp [showLoop, loopFrames, Nat.not_lt_of_le hi]
  | cons ch rest ih =>
    by_cases h : 31 < pos + i
    · obtain hidx : pos + i = 32 := by omega
      have stop : beyondDisplay 32 = true := (beyondDisplay_iff 32).2 (by decide)
      simp [showLoop, hc, loopFrames, hidx, stop, lineReset_beyond (i := i) (by omega)]
    · have hb : beyondDisplay (pos + i) = false := by simpa using mt (beyondDisplay_iff (pos + i)).1 h
      simp only [showLoop, hc, hb, Bool.false_eq_true, if_false, loopFrames, h]
      rw [ih (i + 1) (by omega), lineReset_eq (by omega) (by omega), sendDat_eq]
      simp [extend_extend, ← guardedFrames_append, Nat.add_assoc, Nat.add_comm 1]

/-- Settles O29: the loop with the tests in the other order, after the cursor command both orders send first. -/
theorem otherTestOrderSendsOneMore : Obligations.OtherTestOrderSendsOneMore := by
  intro c text pos s hc
  unfold showStr
  by_cases beyond : 31 < pos
  · simp [(beyondDisplay_iff _).2 beyond, textFrames_of_beyond beyond, Nat.not_le_of_lt beyond]
  · have hp : pos ≤ 31 := Nat.le_of_not_lt beyond
    have hb : beyondDisplay pos = false := by simpa using mt (beyondDisplay_iff pos).1 beyond
    rw [hb, if_neg Bool.false_ne_true, setCur_eq, cursorCommand_position hp,
      showLoop_otherOrder hc hp text 0 (by omega)]
    simp [extend_extend, ← guardedFrames_append, textFrames_of_le hp, hp]

/-- Settles O40: the guard the parameter adds, and SETBL's frame behind it. -/
theorem otherGuardScopeKeepsBacklight : Obligations.OtherGuardScopeKeepsBacklight := by
  intro c b s hc
  cases ha : s.busAddr with
  | none => exact if_pos ⟨hc, ha⟩
  | some a =>
    rw [setBacklight, if_neg (by simp [ha]), sendCmd_eq, State.setBl_busAddr, ha]
    rfl

/-! ### Images and bytes -/

/-- Settles O4: the tables of 10_state.md section 2, and an address with a clear bit above it. -/
theorem registerImages : Obligations.RegisterImages :=
  ⟨rfl, fun a => ⟨by simp [busAddrImage], BitVec.toNat_setWidth_of_le (by decide)⟩, rfl, rfl, rfl⟩

/-- Settles O8: each bit of a composed byte has one source (rules R61 and R62). -/
theorem framedNibbleFields : Obligations.FramedNibbleFields := by
  intro p bl rs
  rw [framedNibble_hi, framedNibble_lo]
  refine ⟨(composed_extract_nibble _ bl rs).trans (extract_high_of_and_nibMask p),
    (composed_extract_nibble _ bl rs).trans (extract_high_of_shiftLeft_four p), ?_⟩
  cases bl <;> cases rs <;> simp

/-- Settles O20: the 32 positions of rule R49. -/
theorem positionToCommandMap : Obligations.PositionToCommandMap := by
  unfold Obligations.PositionToCommandMap
  decide

/-- Settles O46: the vectors of 95_test_vectors.md section 2.5. -/
theorem writtenOutPacketsDecode : Obligations.WrittenOutPacketsDecode :=
  ⟨rfl, rfl, rfl, rfl, rfl, rfl, rfl, rfl, rfl, rfl, rfl⟩

/-! ### The assembler -/

/-- An operand in range is the byte of that value. -/
theorem byteOperand_of_mem {n : Int} (h : 0 ≤ n ∧ n ≤ 255) :
    ∃ b : Byte, byteOperand n = some b ∧ (b.toNat : Int) = n := by
  refine ⟨BitVec.ofInt 8 n, if_pos h, ?_⟩
  rw [BitVec.toNat_ofInt]
  omega

theorem byteOperand_of_not_mem {n : Int} (h : n < 0 ∨ 255 < n) : byteOperand n = none := if_neg (by omega)

theorem textOperand_of_fits {text : List Char} (hlen : text.length ≤ 255) (hch : ∀ ch ∈ text, ch.toNat ≤ 255) :
    textOperand text = some (text.map fun ch => BitVec.ofNat 8 ch.toNat) := by
  rw [textOperand, if_pos hlen]
  clear hlen
  induction text with
  | nil => rfl
  | cons ch rest ih =>
    obtain ⟨hc, hrest⟩ := List.forall_mem_cons.1 hch
    simp [charOperand, hc, ih hrest]

theorem mapM_charOperand_of_wide {text : List Char} {ch : Char} (hmem : ch ∈ text) (hch : 255 < ch.toNat) :
    text.mapM charOperand = none := by
  induction text with
  | nil => cases hmem
  | cons ch' rest ih =>
    obtain rfl | hmem := List.mem_cons.1 hmem
    · have noCode : charOperand ch = none := if_neg (Nat.not_le_of_lt hch)
      simp [noCode]
    · simp [ih hmem]

/-- A text that is too long, or has a character without an 8-bit code, cannot be assembled. -/
theorem textOperand_of_not_fits {text : List Char} (h : 255 < text.length ∨ ∃ ch ∈ text, 255 < ch.toNat) :
    textOperand text = none := by
  unfold textOperand
  split
  · obtain long | ⟨ch, hmem, wide⟩ := h
    · omega
    · exact mapM_charOperand_of_wide hmem wide
  · rfl

/-! The packets, one lemma a row of the table of rule R76. -/

theorem assemble_connect (a : Int) :
    (-128 ≤ a ∧ a ≤ 127 → ∃ b : Byte, assemble (.connect a) = some [0x01, b] ∧ b.toInt = a) ∧
    (a < -128 ∨ 127 < a → assemble (.connect a) = none) :=
  ⟨fun h => ⟨BitVec.ofInt 8 a, if_pos h, BitVec.toInt_ofInt_eq_self (by decide) (by omega) (by omega)⟩,
    fun h => if_neg (by omega)⟩

theorem assemble_showString (text : List Char) (p : Int) :
    (text.length ≤ 255 ∧ (∀ ch ∈ text, ch.toNat ≤ 255) ∧ 0 ≤ p ∧ p ≤ 255 → ∃ pb lb : Byte,
      assemble (.showString text (.number p)) =
        some (0x02 :: pb :: lb :: text.map fun ch => BitVec.ofNat 8 ch.toNat) ∧
      pb.toNat = p ∧ lb.toNat = text.length) ∧
    (255 < text.length ∨ (∃ ch ∈ text, 255 < ch.toNat) ∨ p < 0 ∨ 255 < p →
      assemble (.showString text (.number p)) = none) := by
  constructor
  · rintro ⟨hlen, hch, hp⟩
    obtain ⟨pb, hpb, hval⟩ := byteOperand_of_mem hp
    refine ⟨pb, BitVec.ofNat 8 text.length, ?_, hval, ?_⟩
    · simp only [assemble, textOperand_of_fits hlen hch, PosArg.byte, hpb]
    · rw [BitVec.toNat_ofNat, Nat.mod_eq_of_lt (by omega)]
  · intro h
    obtain h | h := or_assoc.2 h
    · simp only [assemble, textOperand_of_not_fits h]
    · exact (assemble_of_no_position (p := .number p) text 0 (byteOperand_of_not_mem h)).1

theorem assemble_showNumber (v p : Int) :
    (-2147483648 ≤ v ∧ v ≤ 2147483647 ∧ 0 ≤ p ∧ p ≤ 255 → ∃ (pb : Byte) (w : Word32),
      assemble (.showNumber v (.number p)) = some (encode (.shownum pb w)) ∧ pb.toNat = p ∧ w.toInt = v) ∧
    (v < -2147483648 ∨ 2147483647 < v ∨ p < 0 ∨ 255 < p → assemble (.showNumber v (.number p)) = none) := by
  constructor
  · rintro ⟨hlow, hhigh, hp⟩
    obtain ⟨pb, hpb, hval⟩ := byteOperand_of_mem hp
    refine ⟨pb, BitVec.ofInt 32 v, ?_, hval, BitVec.toInt_ofInt_eq_self (by decide) (by omega) (by omega)⟩
    simp only [assemble, PosArg.byte, hpb, if_pos (And.intro hlow hhigh)]
    rfl
  · intro h
    obtain h | h := or_assoc.2 h
    · simp only [assemble, if_neg (show ¬ (-2147483648 ≤ v ∧ v ≤ 2147483647) by omega)]
      split <;> rfl
    · exact (assemble_of_no_position (p := .number p) [] v (byteOperand_of_not_mem h)).2

/-- The lines with one operand byte of 0..255. -/
theorem assemble_byte (n : Int) :
    (0 ≤ n ∧ n ≤ 255 → ∃ b : Byte, b.toNat = n ∧
      assemble (.writeNibble n) = some [0x10, b] ∧
      assemble (.send .command n) = some [0x11, 0x00, b] ∧ assemble (.send .data n) = some [0x11, 0x01, b] ∧
      assemble (.sendCommand n) = some [0x12, b] ∧ assemble (.sendData n) = some [0x13, b]) ∧
    (n < 0 ∨ 255 < n →
      assemble (.writeNibble n) = none ∧ (∀ rs, assemble (.send rs n) = none) ∧
      assemble (.sendCommand n) = none ∧ assemble (.sendData n) = none) := by
  constructor
  · intro h
    obtain ⟨b, hb, hval⟩ := byteOperand_of_mem h
    refine ⟨b, hval, ?_⟩
    simp only [assemble, hb]
    exact ⟨rfl, rfl, rfl, rfl, rfl⟩
  · intro h
    simp only [assemble, byteOperand_of_not_mem h]
    exact ⟨rfl, fun _ => rfl, rfl, rfl⟩

theorem assemble_setCursor (l c : Int) :
    (0 ≤ l ∧ l ≤ 255 ∧ 0 ≤ c ∧ c ≤ 255 → ∃ lb cb : Byte,
      assemble (.setCursor l c) = some [0x14, lb, cb] ∧ lb.toNat = l ∧ cb.toNat = c) ∧
    (l < 0 ∨ 255 < l ∨ c < 0 ∨ 255 < c → assemble (.setCursor l c) = none) := by
  constructor
  · rintro ⟨hl0, hl, hc⟩
    obtain ⟨lb, hlb, hlval⟩ := byteOperand_of_mem ⟨hl0, hl⟩
    obtain ⟨cb, hcb, hcval⟩ := byteOperand_of_mem hc
    exact ⟨lb, cb, by simp only [assemble, hlb, hcb], hlval, hcval⟩
  · intro h
    obtain h | h := or_assoc.2 h
    · rw [assemble, byteOperand_of_not_mem h]
    · rw [assemble, byteOperand_of_not_mem h]
      cases byteOperand l <;> rfl

/-- Settles O48: the table of rule R76, row by row. -/
theorem assemblerPackets : Obligations.AssemblerPackets :=
  ⟨assemble_connect, assemble_showString, assemble_showNumber, rfl, rfl, rfl, assemble_byte, assemble_setCursor⟩

end Sys2Proof.Machine
